-- ==== Sys2Proof/Word.lean ====
section
/-! DEFINITION. The two word types of the block (00_scope.md R8, 30_encoding.md R48). -/

namespace Sys2Proof

/-- The FP32 input word, `IN_WIDTH = 32` bits (R8, R49). -/
abbrev Bits32 := BitVec 32

/-- The FP16 output word, `OUT_WIDTH = 16` bits (R8, R50). -/
abbrev Bits16 := BitVec 16

end Sys2Proof
end

