-- ==== Sys2Proof/Syntax.lean ====
section
/-! DEFINITION. The operations (opcode_table.json, both rows) and the command record that carries them. -/

namespace Sys2Proof

/-- The operations of the block, one constructor per row of spec/opcode_table.json (R2, R13). -/
inductive Instr where
  /-- `convertOne(bits32)`, the scalar operation (40_convert_one.md R64). -/
  | convertOne (bits32 : Bits32)
  /-- `convertMany(in_off, out_off, count)`, the bulk operation (41_convert_many.md R87). The operands are
  natural numbers of no width (R58, D19). -/
  | convertMany (inOff outOff count : Nat)
deriving DecidableEq, Repr

/-- The command record `CMD` (30_encoding.md R58): a record of fields, not a packed word (R48). The field names
are R58's `op`, `bits32`, `in_off`, `out_off`, `count`. -/
structure Cmd where
  op     : BitVec 1
  bits32 : Bits32
  inOff  : Nat
  outOff : Nat
  count  : Nat
deriving DecidableEq, Repr

end Sys2Proof
end

