-- ==== Sys2Proof/WellFormed.lean ====
section
/-! DEFINITION. Well-formed commands. Every term of `Instr` is a legal operation: each 32-bit word is accepted (R54)
and each natural number is an operand (R58, D19), so the only check there is concerns the command record. -/

namespace Sys2Proof

/-- "A command carries only the fields its `op` uses" (R58). The record type has all five fields, so a field the
`op` does not use is 0 in a record in canonical form. Decoding does not look at it (log entry 1). -/
def Cmd.ownFieldsOnly (c : Cmd) : Bool :=
  if c.op = 0#1 then decide (c.inOff = 0) && decide (c.outOff = 0) && decide (c.count = 0)
  else decide (c.bits32 = 0#32)

end Sys2Proof
end

