-- ==== Sys2Proof/Decode.lean ====
section
/-! DEFINITION. Command decoding and encoding (30_encoding.md section 5). -/

namespace Sys2Proof

/-- Command decoding is total: `op = 0` is `convertOne` and `op = 1` is `convertMany` (R59). There is no invalid
verdict (R61). -/
def decode (c : Cmd) : Instr :=
  if c.op = 0#1 then .convertOne c.bits32 else .convertMany c.inOff c.outOff c.count

/-- The record of an operation: its `op` value and the fields the `op` uses (R58), the others 0 (log entry 1). -/
def encode : Instr → Cmd
  | .convertOne bits32 => { op := 0#1, bits32 := bits32, inOff := 0, outOff := 0, count := 0 }
  | .convertMany inOff outOff count =>
    { op := 1#1, bits32 := 0#32, inOff := inOff, outOff := outOff, count := count }

/-- The record that a row's word of spec/opcode_table.json stands for. The table numbers one bit, the `op` field at
bit 0, and gives the operands no bits, so every operand is 0 (log entry 5). Bits of `w` from `nbits` on are not there. -/
def tableCommand (nbits w : Nat) : Cmd :=
  { op := BitVec.ofNat 1 (w % 2 ^ nbits), bits32 := 0#32, inOff := 0, outOff := 0, count := 0 }

/-- The instruction the decoder reads from a word of the opcode table. It never refuses (R59, R61). -/
def decodeTableWord (nbits w : Nat) : Option Instr :=
  some (decode (tableCommand nbits w))

end Sys2Proof
end

