-- ==== Sys2Proof/Config.lean ====
section
/-! DEFINITION. What the spec leaves open (00_scope.md R9) and the free values (93_implementation_defined.md
U4, U5, U7). An opaque constant has no value any proof can see: a claim holds whatever it is. -/

namespace Sys2Proof

/-- The two byte orders an embedding may lay a buffer out in (20_memory.md R37). -/
inductive ByteOrder where
  | little
  | big
deriving DecidableEq, Repr, Inhabited

/-- `COUNT_WIDTH`, OPEN (R9, D19, U9): the width of a realisation's count operand. No command reads it:
the model takes `count` and the offsets as unbounded natural numbers (log entry 13). -/
opaque Config.countWidth : Nat

/-- `BUFFER_BYTE_ORDER`, OPEN (R9, R37, D13, U10). No command reads it; only the byte layout of an embedding
(Machine/Embedding.lean) does. -/
opaque Config.bufferByteOrder : ByteOrder

/-- `LATENCY` in cycles (R9, R123, D18): 0. No rule depends on it. -/
def Config.latency : Nat := 0

/-- What `f16_out` shows at each instant at which `f32_in` is undriven: any value (R115, D21, U7; log entry 9). -/
opaque Config.undrivenOutput : Nat → Bits16

/-- The draw for element `j` of `OUT`, in concurrent episode `n`, when two or more concurrent callers write it:
any 16-bit value (R43 (b), D12, U4; log entry 11). -/
opaque Config.racedOutput (n j : Nat) : Bits16

/-- The draw for element `i` of `IN`, in concurrent episode `n`, as caller `a` reads it in the command after which `k`
of its commands are to come, when another agent writes it meanwhile: any 32-bit value (R43 (c), D12, U5; log entry
11). -/
opaque Config.racedInput (n a k i : Nat) : Bits32

end Sys2Proof
end

