-- ==== Sys2Proof/Machine/Operands.lean ====
section
/-! DEFINITION. The constants of the datapath (00_scope.md R8), the fields of the two formats (30_encoding.md R49,
R50), the operand fields taken from the input word (R52) and the assembly of the result word (R53). -/

namespace Sys2Proof.Machine

/-- `REBIAS`: exactly 112 = 127 - 15, with no additional offset (R8, R67, 90_conflicts.md C1). -/
def rebias : Int := 112

/-- `SHIFT_M`: the number of low mantissa bits dropped (R8, R68). -/
def shiftM : Nat := 13

/-- `CLIP_LO`: an adjusted exponent of at most this gives signed zero (R8, R69). -/
def clipLo : Int := 0

/-- `CLIP_HI`: an adjusted exponent of at least this gives signed infinity (R8, R70). -/
def clipHi : Int := 31

/-- `INF16` (R8, R70). -/
def inf16 : Bits16 := 0x7C00#16

/-- `SIGN16` (R8, R66). -/
def sign16 : Bits16 := 0x8000#16

/-- `x[31]` (R49). -/
def fp32Sign (x : Bits32) : BitVec 1 := x.extractLsb' 31 1

/-- `x[30:23]` (R49). -/
def fp32Exponent (x : Bits32) : BitVec 8 := x.extractLsb' 23 8

/-- `x[22:0]` (R49). -/
def fp32Mantissa (x : Bits32) : BitVec 23 := x.extractLsb' 0 23

/-- `x[30:0]`, the magnitude bits, which order the inputs of one sign (R57, R84). -/
def fp32Magnitude (x : Bits32) : BitVec 31 := x.extractLsb' 0 31

/-- `y[15]` (R50). -/
def fp16Sign (y : Bits16) : BitVec 1 := y.extractLsb' 15 1

/-- `y[14:10]`, the field `E` (R50). -/
def fp16Exponent (y : Bits16) : BitVec 5 := y.extractLsb' 10 5

/-- `y[9:0]`, the field `M` (R50). -/
def fp16Mantissa (y : Bits16) : BitVec 10 := y.extractLsb' 0 10

/-- `y[14:0]` (R84). -/
def fp16Magnitude (y : Bits16) : BitVec 15 := y.extractLsb' 0 15

/-- Step 1: `s = (x >> 16) & 0x8000`, the sign at bit 15 of a 16-bit word (R63, R66). -/
def signField (x : Bits32) : Bits16 := (x >>> 16).setWidth 16 &&& sign16

/-- `e = zext_9(x[30:23])`, the raw exponent read unsigned, 0 to 255 (R52). -/
def rawExponent (x : Bits32) : Nat := (fp32Exponent x).toNat

/-- Step 2: `adj = e - 112` over the mathematical integers, with no wrap-around (R63, R67, R83). -/
def adjustedExponent (x : Bits32) : Int := (rawExponent x : Int) - rebias

/-- Step 3: `m = zext_16((x >> 13) & 0x3FF)`, the top 10 bits of the mantissa (R63, R68). -/
def mantissaField (x : Bits32) : Bits16 := ((x >>> shiftM) &&& 0x3FF#32).setWidth 16

/-- `t = x[12:0]`, which no rule reads (R52, R68). -/
def discardedBits (x : Bits32) : BitVec 13 := x.extractLsb' 0 13

/-- `zext_16(adj[4:0]) << 10`, the exponent placed into bits 14 to 10 (R63, R71). -/
def exponentField (adj : Int) : Bits16 := (BitVec.ofInt 5 adj).setWidth 16 <<< 10

/-- `y = (zext_16(s) << 15) | (zext_16(E) << 10) | zext_16(M)` (R53). -/
def assembleResult (s : BitVec 1) (e : BitVec 5) (m : BitVec 10) : Bits16 :=
  (s.setWidth 16 <<< 15) ||| (e.setWidth 16 <<< 10) ||| m.setWidth 16

end Sys2Proof.Machine
end

