-- ==== Sys2Proof/Machine/Flags.lean ====
section
/-! DEFINITION. The block has no flags, condition codes or predicates, and no IEEE exception flag (10_state.md R20,
40_convert_one.md R82). The one condition it computes is the result class of the datapath (30_encoding.md R57), which
selects a value and is kept nowhere. -/

namespace Sys2Proof.Machine

/-- The three cases of the range clipping (R57). -/
inductive ResultClass where
  | zero
  | normal
  | clip
deriving DecidableEq, Repr

/-- The class an adjusted exponent selects, tested in the order of R63; the order does not matter (R72). -/
def resultClass (adj : Int) : ResultClass :=
  if adj ≤ clipLo then .zero
  else if adj ≥ clipHi then .clip
  else .normal

/-- The class of an input word. -/
def classOf (x : Bits32) : ResultClass := resultClass (adjustedExponent x)

end Sys2Proof.Machine
end

