-- ==== Sys2Proof/Machine/Convert.lean ====
section
/-! DEFINITION. The conversion datapath (40_convert_one.md sections 1 and 3) and its ports (10_state.md R24). -/

namespace Sys2Proof.Machine

/-- `Convert : bits32 -> bits16`, a total function with no mode and no configuration (R63, R65): signed zero (R69),
signed infinity (R70), or sign, adjusted exponent and truncated mantissa (R71). -/
def convert (x : Bits32) : Bits16 :=
  match classOf x with
  | .zero => signField x
  | .clip => signField x ||| inf16
  | .normal => signField x ||| exponentField (adjustedExponent x) ||| mantissaField x

/-- The port `f16_out` at an instant, as a function of what drives `f32_in` at that instant: `Convert(f32_in)` from
the moment `f32_in` is driven, and any value while it is undriven (R24, R63, R115). No state is held. -/
def f16Out (instant : Nat) : Option Bits32 → Bits16
  | some x => convert x
  | none => Config.undrivenOutput instant

/-- The gate-level term `zero = (e ≤ 0x70)` (R73). -/
def gateZero (x : Bits32) : Bool := (fp32Exponent x).ule 0x70#8

/-- The gate-level term `clip = (e ≥ 0x8F)` (R73). -/
def gateClip (x : Bits32) : Bool := (0x8F#8).ule (fp32Exponent x)

/-- The gate-level exponent of the normal class, `E = (~e[4]) ++ e[3:0]` (R73). -/
def gateExponent (x : Bits32) : BitVec 5 :=
  (~~~((fp32Exponent x).extractLsb' 4 1)) ++ (fp32Exponent x).extractLsb' 0 4

/-- A gate-level realisation, which compares the raw exponent and forms no `adj` (R73). It computes the terms in
parallel and selects one (R72). -/
def convertGate (x : Bits32) : Bits16 :=
  assembleResult (fp32Sign x)
    (if gateZero x then 0#5 else if gateClip x then 31#5 else gateExponent x)
    (if gateZero x || gateClip x then 0#10 else x.extractLsb' 13 10)

end Sys2Proof.Machine
end

