-- ==== Sys2Proof/Machine/State.lean ====
section
/-! DEFINITION. The model state (10_state.md section 6), the launch and reset states, and the reasons a step can
stop. -/

namespace Sys2Proof.Machine

/-- A caller-owned buffer of `len` elements of `w` bits (10_state.md R25): `IN` with `w = 32`, `OUT` with `w = 16`.
The element index is the address (20_memory.md R33). `cells` lists the elements that hold a value, in rising index;
an index that is not listed holds `none`, "never written" (log entry 3). -/
structure Memory (w : Nat) where
  len   : Nat
  cells : List (Nat × BitVec w)
deriving DecidableEq, Repr

/-- The canonical form: indices strictly rising, and every index below the length. Equal buffers are then equal
data. -/
abbrev Memory.wf {w : Nat} (m : Memory w) : Prop :=
  m.cells.Pairwise (fun a b => a.1 < b.1) ∧ ∀ c ∈ m.cells, c.1 < m.len

/-- A buffer of `len` elements, none of them written. -/
def Memory.unwritten (w len : Nat) : Memory w := { len := len, cells := [] }

/-- What the fault record holds once a fault is recorded: the cause with the info it records (R22, 60_exceptions.md
R101). No other cause occurs. -/
inductive FaultRecord where
  /-- Cause 1: `count > IN_LEN ∸ in_off` or `count > OUT_LEN ∸ out_off` (R89). -/
  | boundsViolation (inOff outOff count inLen outLen : Nat)
  /-- Cause 2: the lowest element to be read that holds `none` (R90). -/
  | uninitialisedInput (index : Nat)
deriving DecidableEq, Repr

/-- The whole model state `{ pc, results, fault, IN, OUT }` (R28), and the launch's command list `prog`, which is
configuration that no step changes (R29; log entry 2). `IN_LEN` and `OUT_LEN` are `IN.len` and `OUT.len`. -/
structure State where
  /-- The host command index, a natural number with no wrap-around (R18). -/
  pc      : Nat
  /-- The result trace (R19). -/
  results : List Bits16
  /-- The fault record (R22). -/
  fault   : Option FaultRecord
  /-- The caller's input buffer (R25, R31). -/
  IN      : Memory 32
  /-- The caller's output buffer (R25, R32). -/
  OUT     : Memory 16
  /-- The launch's program, indexed by `pc` (R59). -/
  prog    : List Cmd
deriving DecidableEq, Repr

/-- The launch state, which is also the reset state (70_reset_and_hazards.md R116): `prog`, `IN` and `OUT` are as the
launch gives them. -/
def State.launch (prog : List Cmd) (input : Memory 32) (output : Memory 16) : State :=
  { pc := 0, results := [], fault := none, IN := input, OUT := output, prog := prog }

/-- The launch that gives nothing: no command and two buffers of length 0 (log entry 4). -/
def State.reset : State :=
  State.launch [] (Memory.unwritten 32 0) (Memory.unwritten 16 0)

/-- Why no step exists. None of these is a fault of the spec's taxonomy: the spec's two faults are recorded in the
state by a NEXT state (`FaultRecord`). -/
inductive Fault where
  /-- Raised by `step` when a fault is recorded: "no further command executes" (R103). Safe. -/
  | faultRecorded
  /-- Raised by `step` in the final state, `fault = none` and `pc = length(prog)`: the run is over (R18, R117). Safe. -/
  | runComplete
  /-- Raised by `step` when `pc` is past the end of `prog`, where there is no command; no run from a launch gets
  there (log entry 6). Safe. -/
  | pcOutsideProg
  /-- Raised by a meaning whose access names an element outside its buffer, which R34 and R35 leave undefined; the
  bounds check of R89 lets no command get there (log entry 8). Safe. -/
  | elementOutsideBuffer
deriving DecidableEq, Repr

/-- Why an instruction has no meaning. -/
inductive Refusal where
  /-- Raised by an arm of `exec` whose instruction is not modelled yet: no arm is. Safe. -/
  | notModelled (mnemonic : String)
deriving DecidableEq, Repr

end Sys2Proof.Machine
end

