-- ==== Sys2Proof/Machine/Ops.lean ====
section
/-! DEFINITION. The named operations over the buffers and the state: `MemRead`, `MemWrite`, `raise` and the other
primitives of 00_scope.md R12, and the fetch of the next command. The spec has no return from a fault (R108), so no
operation stands beside `State.raise`. -/

namespace Sys2Proof.Machine

/-- What reading one element gives: R34 defines the access inside the buffer only, where the element is `none` or
`some w`. -/
inductive Element (w : Nat) where
  | outside
  | unwritten
  | value (v : BitVec w)
deriving DecidableEq, Repr

/-- What reading `count` elements in ascending index gives: all their values, or the first element that has none. -/
inductive Elements (w : Nat) where
  | outside (index : Nat)
  | unwritten (index : Nat)
  | values (vs : List (BitVec w))
deriving DecidableEq, Repr

/-- The value listed for an index, if any. -/
def Memory.lookup {w : Nat} (i : Nat) : List (Nat × BitVec w) → Option (BitVec w)
  | [] => none
  | (k, v) :: rest => if k = i then some v else Memory.lookup i rest

/-- The list with the value of one index set, in rising index. -/
def Memory.insert {w : Nat} (i : Nat) (v : BitVec w) : List (Nat × BitVec w) → List (Nat × BitVec w)
  | [] => [(i, v)]
  | (k, u) :: rest =>
    if i < k then (i, v) :: (k, u) :: rest
    else if i = k then (i, v) :: rest
    else (k, u) :: Memory.insert i v rest

/-- `MemRead((space, i), _)`: the content of element `i`, unchanged (20_memory.md R34, R36). No side effect (R39). -/
def Memory.read {w : Nat} (m : Memory w) (i : Nat) : Element w :=
  if i < m.len then
    match Memory.lookup i m.cells with
    | none => .unwritten
    | some v => .value v
  else .outside

/-- `MemWrite((space, j), _, v)`: element `j` becomes `some v` and no other element changes (R35, R36). There is no
such access for `j` outside the buffer. -/
def Memory.write {w : Nat} (m : Memory w) (j : Nat) (v : BitVec w) : Option (Memory w) :=
  if j < m.len then some { m with cells := Memory.insert j v m.cells } else none

/-- The reads of R90: elements `i`, `i + 1`, ... in ascending index, the first without a value reported. -/
def Memory.readRange {w : Nat} (m : Memory w) (i : Nat) : Nat → Elements w
  | 0 => .values []
  | n + 1 =>
    match m.read i with
    | .outside => .outside i
    | .unwritten => .unwritten i
    | .value v =>
      match Memory.readRange m (i + 1) n with
      | .values vs => .values (v :: vs)
      | .outside k => .outside k
      | .unwritten k => .unwritten k

/-- The writes of R92: the values to elements `j`, `j + 1`, ... in order. -/
def Memory.writeRange {w : Nat} (m : Memory w) (j : Nat) : List (BitVec w) → Option (Memory w)
  | [] => some m
  | v :: vs =>
    match m.write j v with
    | none => none
    | some m' => Memory.writeRange m' (j + 1) vs

/-- The cause code of a fault record: 1 BoundsViolation, 2 UninitialisedInput (60_exceptions.md R101). -/
def FaultRecord.cause : FaultRecord → Nat
  | .boundsViolation _ _ _ _ _ => 1
  | .uninitialisedInput _ => 2

/-- `pc <- pc + 1` (R12, R18). -/
def State.advance (s : State) : State := { s with pc := s.pc + 1 }

/-- `results <- results ++ [v]` (R12, R19). -/
def State.appendResult (s : State) (v : Bits16) : State := { s with results := s.results ++ [v] }

/-- The state with the output buffer replaced, for the writes of R92. -/
def State.setOutput (s : State) (output : Memory 16) : State := { s with OUT := output }

/-- `raise Fault(cause, info)`: taking a fault sets `fault` and leaves `pc`, `results`, `IN` and `OUT` as they were
before the command (60_exceptions.md R102). `pc` keeps naming the command that faulted (R107). -/
def State.raise (s : State) (r : FaultRecord) : State := { s with fault := some r }

/-- The command the next step executes. A step is enabled only while no fault is recorded (R103), and the command is
`prog[pc]` (R18). Otherwise there is no step, and the reason is named. -/
def fetch (s : State) : Host.Outcome Cmd Fault Refusal :=
  match s.fault with
  | some _ => .fault .faultRecorded
  | none =>
    match s.prog[s.pc]? with
    | some c => .next c
    | none => if s.pc = s.prog.length then .fault .runComplete else .fault .pcOutsideProg

/-- The state with `c` at `prog[pc]` and a step enabled. This stands for the caller's loading of a program, since no
command writes `prog` (R46) or clears `fault` (R104); it is no operation of the machine (log entry 5). -/
def State.placeCommand (s : State) (c : Cmd) : State :=
  { s with
    fault := none
    prog := s.prog.take s.pc ++ List.replicate (s.pc - s.prog.length) c ++ c :: s.prog.drop (s.pc + 1) }

end Sys2Proof.Machine
end

