-- ==== Sys2Proof/Machine/ConvertMany.lean ====
section
/-! DEFINITION. The meaning of `convertMany` (41_convert_many.md R87). -/

namespace Sys2Proof.Machine

/-- The bounds precondition of R89, with the truncated subtraction of natural numbers: both buffers hold `count`
elements from their offsets on. It holds for `count = 0` whatever the offsets. -/
def inBounds (inOff outOff count : Nat) (s : State) : Bool :=
  decide (count ≤ s.IN.len - inOff) && decide (count ≤ s.OUT.len - outOff)

/-- `convertMany(in_off, out_off, count)` (R87), one atomic step (R95): the bounds check (R89), the reads in ascending
index (R90), then the writes of the converted words in order (R92), and `pc` advances. A fault is taken before any
write (R102), and the bounds check comes before the reads (R105). -/
def execConvertMany (inOff outOff count : Nat) (s : State) : Host.Outcome State Fault Refusal :=
  if inBounds inOff outOff count s then
    match s.IN.readRange inOff count with
    | .outside _ => .fault .elementOutsideBuffer
    | .unwritten i => .next (s.raise (.uninitialisedInput i))
    | .values ws =>
      match s.OUT.writeRange outOff (ws.map convert) with
      | none => .fault .elementOutsideBuffer
      | some output => .next (s.setOutput output).advance
  else .next (s.raise (.boundsViolation inOff outOff count s.IN.len s.OUT.len))

end Sys2Proof.Machine
end

