-- ==== Sys2Proof/Machine/ConvertOne.lean ====
section
/-! DEFINITION. The meaning of `convertOne` (40_convert_one.md R64). -/

namespace Sys2Proof.Machine

/-- `convertOne(bits32)`: append `Convert(bits32)` to `results` and advance (R64). It cannot fault, and reads and
writes none of `IN`, `OUT` and `fault`. -/
def execConvertOne (bits32 : Bits32) (s : State) : Host.Outcome State Fault Refusal :=
  .next (s.appendResult (convert bits32)).advance

end Sys2Proof.Machine
end

