-- ==== Sys2Proof/Machine/Dispatch.lean ====
section
/-! DEFINITION. One arm per row of spec/opcode_table.json. -/

namespace Sys2Proof.Machine

/-- The effect of a command that a step has fetched. -/
def exec (i : Instr) (s : State) : Host.Outcome State Fault Refusal :=
  match i with
  | .convertOne bits32 => Sys2Proof.Machine.execConvertOne bits32 s
  | .convertMany inOff outOff count => Sys2Proof.Machine.execConvertMany inOff outOff count s

end Sys2Proof.Machine
end

