-- ==== Sys2Proof/Machine/Step.lean ====
section
/-! DEFINITION. One step: fetch the command at `pc`, decode it, execute it. -/

namespace Sys2Proof.Machine

/-- One command is one step (70_reset_and_hazards.md R123). Where no step exists, the reason is `fetch`'s. -/
def step (s : State) : Host.Outcome State Fault Refusal :=
  match fetch s with
  | .next c => exec (decode c) s
  | .fault r => .fault r
  | .refused r => .refused r

/-- The state in which the very next step runs the command a word of the opcode table stands for (log entry 5). -/
def State.withFetchWord (s : State) (nbits w : Nat) : State :=
  s.placeCommand (tableCommand nbits w)

end Sys2Proof.Machine
end

