-- ==== Sys2Proof/Machine/Assembler.lean ====
section
/-! DEFINITION. The assembler syntax (30_encoding.md R60): one command per line, literals hexadecimal with `0x` or
decimal, and a comment from `#` to the end of the line. Text is a list of characters. What R60 leaves to the reader of
a line (blanks, the case of hexadecimal digits, empty lines) is log entry 12. -/

namespace Sys2Proof.Machine

/-- What one line of source text holds. -/
inductive Line where
  /-- No command: blanks and a comment at most. -/
  | blank
  | command (i : Instr)
  /-- Not of the syntax. -/
  | malformed
deriving DecidableEq, Repr

/-- A blank between tokens: space, tab or carriage return. -/
def isBlank (c : Char) : Bool := c == ' ' || c == '\t' || c == '\r'

/-- The text from its first character that is no blank. -/
def skipBlanks : List Char → List Char
  | [] => []
  | c :: rest => if isBlank c then skipBlanks rest else c :: rest

/-- The text before the first `#` (R60). -/
def stripComment : List Char → List Char
  | [] => []
  | c :: rest => if c = '#' then [] else c :: stripComment rest

/-- The rest of a text that begins with the given word. -/
def dropWord : List Char → List Char → Option (List Char)
  | [], text => some text
  | _ :: _, [] => none
  | c :: word, d :: text => if c = d then dropWord word text else none

/-- The rest after blanks and one given character. -/
def expectChar (c : Char) (text : List Char) : Option (List Char) := dropWord [c] (skipBlanks text)

/-- The value of a digit in a base of at most 16. -/
def digitValue (base : Nat) (c : Char) : Option Nat :=
  let n := c.toNat
  let d := if 48 ≤ n ∧ n ≤ 57 then n - 48
    else if 65 ≤ n ∧ n ≤ 70 then n - 55
    else if 97 ≤ n ∧ n ≤ 102 then n - 87
    else base
  if d < base then some d else none

/-- The digits at the front of a text, after the number `acc`, and the rest. -/
def readDigits (base acc : Nat) : List Char → Nat × List Char
  | [] => (acc, [])
  | c :: rest =>
    match digitValue base c with
    | some d => readDigits base (acc * base + d) rest
    | none => (acc, c :: rest)

/-- A number of at least one digit. -/
def readNumber (base : Nat) : List Char → Option (Nat × List Char)
  | [] => none
  | c :: rest => (digitValue base c).map fun d => readDigits base d rest

/-- A literal after blanks: hexadecimal with `0x`, else decimal (R60). -/
def readLiteral (text : List Char) : Option (Nat × List Char) :=
  match dropWord ['0', 'x'] (skipBlanks text) with
  | some digits => readNumber 16 digits
  | none => readNumber 10 (skipBlanks text)

/-- The word `convertOne`. -/
def convertOneWord : List Char := ['c', 'o', 'n', 'v', 'e', 'r', 't', 'O', 'n', 'e']

/-- The word `convertMany`. -/
def convertManyWord : List Char := ['c', 'o', 'n', 'v', 'e', 'r', 't', 'M', 'a', 'n', 'y']

/-- What follows the word `convertOne`: one 32-bit literal in parentheses, then nothing (R60). -/
def readConvertOne (text : List Char) : Option Instr := do
  let text ← expectChar '(' text
  let (v, text) ← readLiteral text
  let text ← expectChar ')' text
  if v < 0x100000000 ∧ skipBlanks text = [] then some (.convertOne (BitVec.ofNat 32 v)) else none

/-- What follows the word `convertMany`: three natural-number literals in parentheses, then nothing (R60). -/
def readConvertMany (text : List Char) : Option Instr := do
  let text ← expectChar '(' text
  let (inOff, text) ← readLiteral text
  let text ← expectChar ',' text
  let (outOff, text) ← readLiteral text
  let text ← expectChar ',' text
  let (count, text) ← readLiteral text
  let text ← expectChar ')' text
  if skipBlanks text = [] then some (.convertMany inOff outOff count) else none

/-- One command of the syntax, from a text without comment and without leading blanks. -/
def readCommand (text : List Char) : Option Instr :=
  match dropWord convertOneWord text with
  | some operands => readConvertOne operands
  | none =>
    match dropWord convertManyWord text with
    | some operands => readConvertMany operands
    | none => none

/-- One line of source text (R60). -/
def parseLine (line : List Char) : Line :=
  match skipBlanks (stripComment line) with
  | [] => .blank
  | c :: rest =>
    match readCommand (c :: rest) with
    | some i => .command i
    | none => .malformed

/-- The lines of a text. -/
def splitLines : List Char → List (List Char)
  | [] => [[]]
  | c :: rest =>
    match splitLines rest with
    | [] => [[c]]
    | line :: lines => if c = '\n' then [] :: line :: lines else (c :: line) :: lines

/-- The commands of a list of lines, in order, or nothing if one is malformed. -/
def assembleLines : List (List Char) → Option (List Cmd)
  | [] => some []
  | line :: lines =>
    match parseLine line, assembleLines lines with
    | .blank, some cmds => some cmds
    | .command i, some cmds => some (encode i :: cmds)
    | .malformed, _ => none
    | _, none => none

/-- The `prog` of a source text: one CMD record per command, in the order of the lines (R59, R60). -/
def assemble (text : List Char) : Option (List Cmd) := assembleLines (splitLines text)

/-- The digit of a value below 16, upper case as the spec prints it. -/
def digitChar (d : Nat) : Char := Char.ofNat (if d < 10 then 48 + d else 55 + d)

/-- The decimal digits of `n` before the text `acc`; `fuel` bounds the number of digits. -/
def decimalBefore (acc : List Char) : Nat → Nat → List Char
  | 0, _ => acc
  | fuel + 1, n =>
    if n < 10 then digitChar n :: acc else decimalBefore (digitChar (n % 10) :: acc) fuel (n / 10)

/-- A natural number in decimal. -/
def printDecimal (n : Nat) : List Char := decimalBefore [] (n + 1) n

/-- The 8 hexadecimal digits of a 32-bit word, the high digit first. -/
def printHex32 (x : Bits32) : List Char :=
  [28, 24, 20, 16, 12, 8, 4, 0].map fun k => digitChar ((x >>> k).toNat % 16)

/-- A command in the syntax of R60, written as the spec's own programs are (95_test_vectors.md section 3). -/
def printInstr : Instr → List Char
  | .convertOne bits32 => convertOneWord ++ ['(', '0', 'x'] ++ printHex32 bits32 ++ [')']
  | .convertMany inOff outOff count =>
    convertManyWord ++ ['('] ++ printDecimal inOff ++ [',', ' '] ++ printDecimal outOff ++ [',', ' '] ++
      printDecimal count ++ [')']

end Sys2Proof.Machine
end

