-- ==== Sys2Proof/Machine/Numeric.lean ====
section
/-! DEFINITION. The words read as numbers (40_convert_one.md section 4). These readings are derived and informative:
no rule of the datapath depends on them (30_encoding.md R51). The formulas are IEEE-754 conventions the spec takes from
general knowledge (R74, K2). PRESUMED: the reading of words with exponent field 0, which R74 does not give (log entry
14). -/

namespace Sys2Proof.Machine

/-- `(-1)^s`. -/
def signFactor (s : BitVec 1) : ℚ := if s = 1#1 then -1 else 1

/-- The value of an FP32 word that is no infinity and no NaN: `(-1)^s * 2^(e-127) * (1 + x[22:0]/2^23)` (R74), and
without the hidden 1 where `e = 0`. -/
def fp32Value (x : Bits32) : ℚ :=
  if rawExponent x = 0 then
    signFactor (fp32Sign x) * (2 : ℚ) ^ (-126 : ℤ) * ((fp32Mantissa x).toNat / 2 ^ 23)
  else
    signFactor (fp32Sign x) * (2 : ℚ) ^ ((rawExponent x : ℤ) - 127) * (1 + (fp32Mantissa x).toNat / 2 ^ 23)

/-- The value of an FP16 word that is no infinity and no NaN: `(-1)^s * 2^(E-15) * (1 + M/2^10)` (R74), and without
the hidden 1 where `E = 0`. -/
def fp16Value (y : Bits16) : ℚ :=
  if (fp16Exponent y).toNat = 0 then
    signFactor (fp16Sign y) * (2 : ℚ) ^ (-14 : ℤ) * ((fp16Mantissa y).toNat / 2 ^ 10)
  else
    signFactor (fp16Sign y) * (2 : ℚ) ^ (((fp16Exponent y).toNat : ℤ) - 15) * (1 + (fp16Mantissa y).toNat / 2 ^ 10)

end Sys2Proof.Machine
end

