-- ==== Sys2Proof/Machine/Embedding.lean ====
section
/-! DEFINITION. What an embedding adds around the single-caller machine: any number of caller agents (20_memory.md R43,
60_exceptions.md R113, 70_reset_and_hazards.md R121, R122), other agents that write `IN`, and a byte memory that holds the
buffers (20_memory.md R37). `step` uses none of it: it has one caller agent (R42). Log entries 11 and 15. -/

namespace Sys2Proof.Machine

/-! ### Caller agents -/

/-- What one caller agent has of its own: its command list and index, the values its scalar conversions returned, and its
fault record. The block keeps nothing of a caller (R113). -/
structure Caller where
  pc      : Nat
  results : List Bits16
  fault   : Option FaultRecord
  prog    : List Cmd
deriving DecidableEq, Repr

/-- Any number of caller agents over the two buffers they share (R43, R113). -/
structure System where
  callers : List Caller
  IN      : Memory 32
  OUT     : Memory 16
deriving DecidableEq, Repr

/-- The machine as one caller has it, over given buffers. -/
def Caller.view (c : Caller) (input : Memory 32) (output : Memory 16) : State :=
  { pc := c.pc, results := c.results, fault := c.fault, IN := input, OUT := output, prog := c.prog }

/-- The caller's own part of a machine state. -/
def State.caller (s : State) : Caller :=
  { pc := s.pc, results := s.results, fault := s.fault, prog := s.prog }

/-- The command caller `a` executes next, if it has one and no fault recorded. -/
def System.nextCommand (sys : System) (a : Nat) : Option Instr :=
  match sys.callers[a]? with
  | none => none
  | some c =>
    match fetch (c.view sys.IN sys.OUT) with
    | .next cmd => some (decode cmd)
    | .fault _ => none
    | .refused _ => none

/-- Caller `a` executes one command while no other agent acts. A caller without a next command does nothing. -/
def System.stepCaller (sys : System) (a : Nat) : System :=
  match sys.callers[a]? with
  | none => sys
  | some c =>
    match step (c.view sys.IN sys.OUT) with
    | .next t => { callers := sys.callers.set a t.caller, IN := t.IN, OUT := t.OUT }
    | .fault _ => sys
    | .refused _ => sys

/-! ### Concurrent execution -/

/-- A buffer after writes, in order; a write outside the buffer has no element to change. -/
def Memory.writeAll {w : Nat} (m : Memory w) : List (Nat × BitVec w) → Memory w
  | [] => m
  | (i, v) :: rest =>
    match m.write i v with
    | some m' => Memory.writeAll m' rest
    | none => Memory.writeAll m rest

/-- What agents that are no callers write into the buffers during an episode, each list in order: the writes the
caller's duty of R121 forbids. -/
structure OtherWrites where
  input  : List (Nat × Bits32)
  output : List (Nat × Bits16)
deriving DecidableEq, Repr

/-- No agent but the callers acts. -/
def OtherWrites.quiet : OtherWrites := { input := [], output := [] }

/-- `IN` as caller `a` reads it in one command, with `k` of its commands still to come, while other agents make the given
writes: an element they write is read as any 32-bit value (R43 (c)). -/
def racedView (n a k : Nat) (writes : List (Nat × Bits32)) (input : Memory 32) : Memory 32 :=
  input.writeAll (writes.map fun c => (c.1, Config.racedInput n a k c.1))

/-- At most so many commands of one caller, each reading `IN` as the view says. A caller stops at its end or its fault. -/
def runCommands (view : Nat → Memory 32) : Nat → State → State
  | 0, s => s
  | k + 1, s =>
    match step { s with IN := view k } with
    | .next t => runCommands view k t
    | .fault _ => s
    | .refused _ => s

/-- Caller `a` after its part of a concurrent episode. Its `OUT` starts with no element written, so it ends holding just
the elements this caller wrote: no command reads `OUT` (41_convert_many.md R94). -/
def System.runCaller (sys : System) (n : Nat) (turns : Nat → Nat) (other : OtherWrites) (a : Nat)
    (c : Caller) : State :=
  runCommands (fun k => racedView n a k other.input sys.IN) (turns a)
    (c.view sys.IN (Memory.unwritten 16 sys.OUT.len))

/-- How many agents wrote element `j`, given what each of them wrote. -/
def writerCount (effects : List (Memory 16)) (j : Nat) : Nat :=
  (effects.filter fun e => (Memory.lookup j e.cells).isSome).length

/-- `OUT` after concurrent agents, given what each of them wrote: an element one of them wrote holds its value, an
element two or more wrote holds any 16-bit value (R43 (b), R121), and any other element is untouched. -/
def mergeEffects (n : Nat) (output : Memory 16) (effects : List (Memory 16)) : Memory 16 :=
  output.writeAll ((effects.flatMap fun e => e.cells).map fun c =>
    (c.1, if writerCount effects c.1 ≤ 1 then c.2 else Config.racedOutput n c.1))

/-- A concurrent episode, number `n`: caller `a` executes up to `turns a` commands, for each of any number of callers, all
concurrently, while other agents make the given writes. A caller that faults records it for itself and writes nothing in
that command. Afterwards `IN` holds what the other agents wrote. -/
def System.episode (sys : System) (n : Nat) (turns : Nat → Nat) (other : OtherWrites) : System :=
  let ends := sys.callers.mapIdx fun a c => sys.runCaller n turns other a c
  { callers := ends.map State.caller
    IN := sys.IN.writeAll other.input
    OUT := mergeEffects n sys.OUT
      ((Memory.unwritten 16 sys.OUT.len).writeAll other.output :: ends.map State.OUT) }

/-- One command for each of the given callers, none for the others. -/
def oneCommandEach (agents : List Nat) (a : Nat) : Nat := if a ∈ agents then 1 else 0

/-! ### Buffers in a byte memory -/

/-- The `n` low bytes of an element, the low byte first. -/
def littleBytes {w : Nat} (v : BitVec w) : Nat → List (BitVec 8)
  | 0 => []
  | n + 1 => v.setWidth 8 :: littleBytes (v >>> 8) n

/-- The bytes of an element in an embedding's byte order, at rising addresses (R37). -/
def elementBytes {w : Nat} (order : ByteOrder) (v : BitVec w) : List (BitVec 8) :=
  match order with
  | .little => littleBytes v (w / 8)
  | .big => (littleBytes v (w / 8)).reverse

/-- Bytes at consecutive addresses. -/
def cellsFrom (address : Nat) : List (BitVec 8) → List Host.Cell
  | [] => []
  | b :: rest => (address, b) :: cellsFrom (address + 1) rest

/-- The written elements of a buffer laid out in a byte memory from `base` on, element `i` at `base + i * (w / 8)`, in
the byte order the embedding supplies (R37, D13). The command's own accesses see no bytes. -/
def Memory.byteCells {w : Nat} (m : Memory w) (order : ByteOrder) (base : Nat) : List Host.Cell :=
  m.cells.flatMap fun c => cellsFrom (base + c.1 * (w / 8)) (elementBytes order c.2)

/-- The layout with the OPEN parameter `BUFFER_BYTE_ORDER`. -/
def Memory.embedded {w : Nat} (m : Memory w) (base : Nat) : List Host.Cell :=
  m.byteCells Config.bufferByteOrder base

end Sys2Proof.Machine
end

