-- ==== Sys2Proof/Safety.lean ====
section
/-! DEFINITION. What a claim is stated in terms of: final states and what is observed of them, the caller's duties,
which elements a caller agent writes, and the invariant of the machine. -/

namespace Sys2Proof.Machine

/-- A state is final exactly when `fault = none` and `pc = length(prog)` (70_reset_and_hazards.md R117). -/
def State.final (s : State) : Prop := s.fault = none ∧ s.pc = s.prog.length

/-- What a claim observes at a final state: `results` and `OUT` (R117). -/
def State.observe (s : State) : List Bits16 × Memory 16 := (s.results, s.OUT)

/-- `n` steps of the machine, stopping at the first step that does not exist. -/
abbrev runSteps (n : Nat) (s : State) : Host.Outcome State Fault Refusal := Host.Core.run Sys2Proof.core n s

/-- Both buffers are long enough for the command: the precondition of 41_convert_many.md R89. -/
abbrev fits (inOff outOff count : Nat) (s : State) : Prop :=
  count ≤ s.IN.len - inOff ∧ count ≤ s.OUT.len - outOff

/-- Every element the command reads holds a value (R119, second duty). -/
def inputWritten (inOff count : Nat) (s : State) : Prop :=
  ∀ k, k < count → ∃ v, s.IN.read (inOff + k) = .value v

/-- The caller's three duties before a `convertMany` (70_reset_and_hazards.md R119). -/
structure CallerDuties (inOff outOff count : Nat) (s : State) : Prop where
  inputHolds  : inOff + count ≤ s.IN.len
  inputValues : inputWritten inOff count s
  outputHolds : outOff + count ≤ s.OUT.len

/-- The operands stay below `2 ^ COUNT_WIDTH`, so that a realisation with a count register of that width agrees with
the model (92_eei_decisions.md D19). A claim carried over to a realisation takes this as a premise. -/
def countsFit (inOff outOff count : Nat) : Prop :=
  count < 2 ^ Config.countWidth ∧ inOff + count < 2 ^ Config.countWidth ∧ outOff + count < 2 ^ Config.countWidth

/-- Output element `j` is one the command writes (R92, R93). -/
abbrev writesElement (outOff count j : Nat) : Prop := outOff ≤ j ∧ j < outOff + count

/-- The next command of caller `a` names output element `j`, whether or not it completes. -/
def System.covers (sys : System) (a j : Nat) : Prop :=
  ∃ inOff outOff count, sys.nextCommand a = some (.convertMany inOff outOff count) ∧ writesElement outOff count j

/-- The next command of caller `a` writes output element `j`: it names it and completes without a fault. -/
def System.writesAt (sys : System) (a j : Nat) : Prop :=
  sys.covers a j ∧ ∃ c, (sys.stepCaller a).callers[a]? = some c ∧ c.fault = none

/-- A recorded fault is the one the command at `pc` raises on these buffers (60_exceptions.md R101, R105, R107). -/
def faultExplained (s : State) : FaultRecord → Prop
  | .boundsViolation inOff outOff count inLen outLen =>
    s.prog[s.pc]?.map decode = some (.convertMany inOff outOff count) ∧
      inLen = s.IN.len ∧ outLen = s.OUT.len ∧ ¬ fits inOff outOff count s
  | .uninitialisedInput i =>
    ∃ inOff outOff count k, s.prog[s.pc]?.map decode = some (.convertMany inOff outOff count) ∧
      fits inOff outOff count s ∧ k < count ∧ i = inOff + k ∧ s.IN.read i = .unwritten ∧
      ∀ l, l < k → ∃ v, s.IN.read (inOff + l) = .value v

/-- What every state of a run from a launch has: both buffers in canonical form, `pc` within the program, and a
recorded fault that is the command at `pc`'s own. -/
structure Inv (s : State) : Prop where
  input    : s.IN.wf
  output   : s.OUT.wf
  pcInProg : s.pc ≤ s.prog.length
  faulted  : ∀ r, s.fault = some r → faultExplained s r

end Sys2Proof.Machine
end

