-- ==== Sys2Proof/Certificates/Slice0/Obligations.lean ====
section
/-! DEFINITION. The statements for the provers. Each docstring names the rule of spec/ it formalises. A witness of each
statement's hypotheses stands in Sys2Proof/Tests/Slice0.lean. -/

open Sys2Proof Sys2Proof.Machine

/-! ### Commands: decoding, fetching, the assembler syntax -/

/-- R59: decoding is total, `op` selects the operation, and the program is indexed by `pc`. -/
def Obligations.CommandDecodeIsTotal : Prop :=
  ∀ c : Cmd, (c.op = 0#1 ∨ c.op = 1#1) ∧
    (c.op = 0#1 → decode c = .convertOne c.bits32) ∧
    (c.op = 1#1 → decode c = .convertMany c.inOff c.outOff c.count) ∧
    ∀ s : State, s.fault = none → s.prog[s.pc]? = some c → fetch s = .next c

/-- 30_encoding.md section 5: no operand is lost in a command record. -/
def Obligations.DecodeOfEncodedInstruction : Prop :=
  ∀ i : Instr, decode (encode i) = i

/-- 30_encoding.md section 5: a record that carries only the fields its `op` uses is the record of its operation.
That an unused field is 0 is the model's choice (log entry 1). -/
def Obligations.EncodeOfDecodedCommand : Prop :=
  ∀ c : Cmd, c.ownFieldsOnly = true → encode (decode c) = c

/-- 95_test_vectors.md section 3: the records of programs P1 and P2 decode to the commands printed beside them. -/
def Obligations.SpecProgramRecordsDecode : Prop :=
  decode { op := 0#1, bits32 := 0x3F800000#32, inOff := 0, outOff := 0, count := 0 } = .convertOne 0x3F800000#32 ∧
  decode { op := 0#1, bits32 := 0x3EAAAAAB#32, inOff := 0, outOff := 0, count := 0 } = .convertOne 0x3EAAAAAB#32 ∧
  decode { op := 1#1, bits32 := 0#32, inOff := 0, outOff := 0, count := 5 } = .convertMany 0 0 5 ∧
  decode { op := 1#1, bits32 := 0#32, inOff := 1, outOff := 3, count := 2 } = .convertMany 1 3 2

/-- 10_state.md section 2: a step runs the decoded command at `pc`, and does nothing around it. -/
def Obligations.StepRunsDecodedCommand : Prop :=
  ∀ (s : State) (c : Cmd), s.fault = none → s.prog[s.pc]? = some c → step s = exec (decode c) s

/-- 30_encoding.md section 5, R60: the assembler reads every printed command back, with blanks around it and with or
without a comment after it. What counts as a blank is the model's choice (log entry 12). -/
def Obligations.AssemblerReadsPrintedCommand : Prop :=
  ∀ (i : Instr) (before after comment : List Char),
    (∀ c ∈ before, isBlank c = true) → (∀ c ∈ after, isBlank c = true) →
      parseLine (before ++ printInstr i ++ after) = .command i ∧
      parseLine (before ++ printInstr i ++ after ++ '#' :: comment) = .command i

/-- 30_encoding.md section 5, R60 and R59: a source text with one printed command per line assembles to the records of
the commands, in order. Each line ends in a line break, so the text has an empty last line, which is no command by the
model's choice (log entry 12), and that the fields an `op` does not use are 0 is the model's choice too (log entry 1). -/
def Obligations.AssembledTextIsProgram : Prop :=
  ∀ is : List Instr, assemble (is.flatMap fun i => printInstr i ++ ['\n']) = some (is.map encode)

/-! ### The conversion datapath -/

/-- R63: the pseudocode of `Convert`, and the driven output port. -/
def Obligations.ConvertFollowsPseudocode : Prop :=
  ∀ (instant : Nat) (x : Bits32), f16Out instant (some x) = convert x ∧
    convert x =
      (let s : Bits16 := (x >>> 16).setWidth 16 &&& 0x8000#16
       let e : Int := ((x.extractLsb' 23 8).toNat : Int)
       let adj : Int := e - 112
       let m : Bits16 := ((x >>> 13) &&& 0x3FF#32).setWidth 16
       if adj ≤ 0 then s
       else if adj ≥ 31 then s ||| 0x7C00#16
       else s ||| ((BitVec.ofInt 5 adj).setWidth 16 <<< 10) ||| m)

/-- R66: the sign bit passes through in all three classes. -/
def Obligations.SignBitPassesThrough : Prop :=
  ∀ x : Bits32, fp16Sign (convert x) = fp32Sign x ∧
    signField x = (x >>> 16).setWidth 16 &&& 0x8000#16 ∧
    convert x &&& 0x8000#16 = signField x

/-- R67: the rebias subtracts exactly 112 over the integers and never wraps. -/
def Obligations.RebiasIsExact : Prop :=
  ∀ x : Bits32, adjustedExponent x = ((x.extractLsb' 23 8).toNat : Int) - 112 ∧
    -112 ≤ adjustedExponent x ∧ adjustedExponent x ≤ 143 ∧ rebias = 127 - 15

/-- R68: the mantissa is truncated to its top 10 bits, and the low 13 bits have no effect on any output bit. -/
def Obligations.LowMantissaBitsDiscarded : Prop :=
  ∀ x : Bits32, mantissaField x = (x.extractLsb' 13 10).setWidth 16 ∧
    ∀ x' : Bits32, x'.extractLsb' 13 19 = x.extractLsb' 13 19 → convert x' = convert x

/-- R69: the low side of the range clipping. -/
def Obligations.LowExponentGivesSignedZero : Prop :=
  ∀ x : Bits32, (adjustedExponent x ≤ 0 ↔ rawExponent x ≤ 112) ∧
    (adjustedExponent x ≤ 0 →
      convert x = signField x ∧ convert x = (fp32Sign x).setWidth 16 <<< 15 ∧
      fp16Exponent (convert x) = 0#5 ∧ fp16Mantissa (convert x) = 0#10)

/-- R70: the high side of the range clipping. -/
def Obligations.HighExponentGivesSignedInfinity : Prop :=
  ∀ x : Bits32, (adjustedExponent x ≥ 31 ↔ rawExponent x ≥ 143) ∧
    (adjustedExponent x ≥ 31 →
      convert x = signField x ||| 0x7C00#16 ∧ convert x = ((fp32Sign x).setWidth 16 <<< 15) ||| 0x7C00#16 ∧
      fp16Exponent (convert x) = 31#5 ∧ fp16Mantissa (convert x) = 0#10)

/-- R71: the normal case. -/
def Obligations.NormalExponentIsRebiased : Prop :=
  ∀ x : Bits32, (1 ≤ adjustedExponent x ∧ adjustedExponent x ≤ 30 ↔ 113 ≤ rawExponent x ∧ rawExponent x ≤ 142) ∧
    (1 ≤ adjustedExponent x → adjustedExponent x ≤ 30 →
      convert x = signField x ||| (BitVec.ofInt 16 (adjustedExponent x) <<< 10) ||| mantissaField x ∧
      ((fp16Exponent (convert x)).toNat : Int) = adjustedExponent x ∧
      fp16Mantissa (convert x) = x.extractLsb' 13 10)

/-- R53: the result word is the concatenation of its three fields, for each class. -/
def Obligations.ResultIsConcatenation : Prop :=
  (∀ (s : BitVec 1) (e : BitVec 5) (m : BitVec 10),
    assembleResult s e m = (s.setWidth 16 <<< 15) ||| (e.setWidth 16 <<< 10) ||| m.setWidth 16 ∧
    assembleResult s e m = s ++ e ++ m) ∧
  ∀ x : Bits32, convert x =
    match classOf x with
    | .zero => assembleResult (fp32Sign x) 0#5 0#10
    | .clip => assembleResult (fp32Sign x) 31#5 0#10
    | .normal => assembleResult (fp32Sign x) (BitVec.ofInt 5 (adjustedExponent x)) (x.extractLsb' 13 10)

/-- 30_encoding.md section 4 (R57): the table of classes, by adjusted exponent, by raw exponent and by magnitude bits. -/
def Obligations.ClassTableAgrees : Prop :=
  ∀ x : Bits32,
    ((classOf x = .zero ↔ adjustedExponent x ≤ 0) ∧ (classOf x = .zero ↔ rawExponent x ≤ 112) ∧
      (classOf x = .zero ↔ (fp32Magnitude x).toNat ≤ 0x387FFFFF)) ∧
    ((classOf x = .normal ↔ 1 ≤ adjustedExponent x ∧ adjustedExponent x ≤ 30) ∧
      (classOf x = .normal ↔ 113 ≤ rawExponent x ∧ rawExponent x ≤ 142) ∧
      (classOf x = .normal ↔ 0x38800000 ≤ (fp32Magnitude x).toNat ∧ (fp32Magnitude x).toNat ≤ 0x477FFFFF)) ∧
    ((classOf x = .clip ↔ adjustedExponent x ≥ 31) ∧ (classOf x = .clip ↔ rawExponent x ≥ 143) ∧
      (classOf x = .clip ↔ (fp32Magnitude x).toNat ≥ 0x47800000))

/-- 40_convert_one.md section 3 (R72, R73): the gate-level realisation, which forms no adjusted exponent and selects in
parallel, computes `Convert`. -/
def Obligations.GateLevelRealisationAgrees : Prop :=
  ∀ x : Bits32, convertGate x = convert x

/-- 30_encoding.md section 3 (R55): exactly these output patterns are produced. -/
def Obligations.OutputPatternsProduced : Prop :=
  ∀ y : Bits16, (∃ x : Bits32, convert x = y) ↔
    (fp16Exponent y = 0#5 ∧ fp16Mantissa y = 0#10) ∨
    (1 ≤ (fp16Exponent y).toNat ∧ (fp16Exponent y).toNat ≤ 30) ∨
    (fp16Exponent y = 31#5 ∧ fp16Mantissa y = 0#10)

/-- R77: subnormal and small normal inputs give signed zero, and no output is an FP16 subnormal. -/
def Obligations.SubnormalsCollapseToSignedZero : Prop :=
  (∀ x : Bits32, (rawExponent x = 0 ∧ fp32Mantissa x ≠ 0#23) ∨ (1 ≤ rawExponent x ∧ rawExponent x ≤ 112) →
    convert x = if fp32Sign x = 1#1 then 0x8000#16 else 0x0000#16) ∧
  ∀ x : Bits32, ¬ (fp16Exponent (convert x) = 0#5 ∧ fp16Mantissa (convert x) ≠ 0#10)

/-- R78: a NaN input gives the infinity of its sign, and no output is a NaN. -/
def Obligations.NansCollapseToSignedInfinity : Prop :=
  (∀ x : Bits32, rawExponent x = 255 → fp32Mantissa x ≠ 0#23 →
    (fp32Sign x = 0#1 → convert x = 0x7C00#16) ∧ (fp32Sign x = 1#1 → convert x = 0xFC00#16)) ∧
  ∀ x : Bits32, ¬ (fp16Exponent (convert x) = 31#5 ∧ fp16Mantissa (convert x) ≠ 0#10)

/-- R79: the infinities, and the finite inputs that saturate to the same two values. -/
def Obligations.OverflowSaturatesToSignedInfinity : Prop :=
  convert 0x7F800000#32 = 0x7C00#16 ∧ convert 0xFF800000#32 = 0xFC00#16 ∧
  ∀ x : Bits32, 143 ≤ rawExponent x → rawExponent x ≤ 254 →
    convert x = if fp32Sign x = 1#1 then 0xFC00#16 else 0x7C00#16

/-- 40_convert_one.md section 6 (R84 (b)): sign symmetry. -/
def Obligations.SignSymmetry : Prop :=
  ∀ x : Bits32, convert (x ^^^ 0x80000000#32) = convert x ^^^ 0x8000#16

/-- 40_convert_one.md section 6 (R84 (d)): the conversion is monotone in magnitude. -/
def Obligations.MonotoneInMagnitude : Prop :=
  ∀ x x' : Bits32, fp32Sign x = fp32Sign x' → (fp32Magnitude x).toNat ≤ (fp32Magnitude x').toNat →
    (fp16Magnitude (convert x)).toNat ≤ (fp16Magnitude (convert x')).toNat

/-- 40_convert_one.md section 6 (R84 (e) and (f)): which inputs give infinity and which give zero. -/
def Obligations.InfinityAndZeroThresholds : Prop :=
  ∀ x : Bits32,
    (fp16Exponent (convert x) = 31#5 ↔ 0x47800000 ≤ (fp32Magnitude x).toNat) ∧
    (fp16Exponent (convert x) = 31#5 → fp16Mantissa (convert x) = 0#10) ∧
    (fp16Magnitude (convert x) = 0#15 ↔ (fp32Magnitude x).toNat ≤ 0x387FFFFF)

/-- 40_convert_one.md section 4 (R74, informative): in the normal class the output value is the input value with its
fraction truncated to 10 bits, and the unbiased exponent is kept. The value formulas are general knowledge (log
entry 14). -/
def Obligations.NormalValueIsTruncated : Prop :=
  ∀ x : Bits32, classOf x = .normal →
    fp16Value (convert x) =
      signFactor (fp32Sign x) * (2 : ℚ) ^ ((rawExponent x : ℤ) - 127) *
        ((⌊(1 + ((fp32Mantissa x).toNat : ℚ) / 2 ^ 23) * 2 ^ 10⌋ : ℚ) / 2 ^ 10) ∧
    ((fp16Exponent (convert x)).toNat : ℤ) - 15 = (rawExponent x : ℤ) - 127

/-- 40_convert_one.md section 4 (R75, informative): the magnitudes of the three classes of finite inputs, and the largest
finite output. The value formulas are general knowledge (log entry 14). -/
def Obligations.ClassesByMagnitudeOfValue : Prop :=
  ∀ x : Bits32, rawExponent x ≤ 254 →
    (classOf x = .zero ↔ |fp32Value x| < (2 : ℚ) ^ (-14 : ℤ)) ∧
    (classOf x = .normal ↔ (2 : ℚ) ^ (-14 : ℤ) ≤ |fp32Value x| ∧ |fp32Value x| < 2 ^ 16) ∧
    (classOf x = .clip ↔ 2 ^ 16 ≤ |fp32Value x|) ∧
    (65504 ≤ fp32Value x → fp32Value x < 65536 → convert x = 0x7BFF#16)

/-- 40_convert_one.md section 4 (R76, informative): in the normal class the output is the largest normal FP16 magnitude
that is no greater than the input's magnitude: truncation, never rounding up. The value formulas are general knowledge
(log entry 14). -/
def Obligations.NormalOutputIsNearestBelow : Prop :=
  ∀ x : Bits32, classOf x = .normal →
    |fp16Value (convert x)| ≤ |fp32Value x| ∧
    ∀ y : Bits16, 1 ≤ (fp16Exponent y).toNat → (fp16Exponent y).toNat ≤ 30 → |fp16Value y| ≤ |fp32Value x| →
      |fp16Value y| ≤ |fp16Value (convert x)|

/-! ### The two operations -/

/-- R64: `convertOne` completes in every state, appends `Convert(bits32)`, advances, and changes nothing else. -/
def Obligations.ConvertOneAppendsResult : Prop :=
  (∀ (bits32 : Bits32) (s : State),
    exec (.convertOne bits32) s =
      .next { s with results := s.results ++ [convert bits32], pc := s.pc + 1 }) ∧
  (∀ c : Cmd, c.op = 0#1 → decode c = .convertOne c.bits32) ∧
  (∀ (instant : Nat) (bits32 : Bits32), f16Out instant (some bits32) = convert bits32) ∧
  convert 0x3F800000#32 = 0x3C00#16

/-- R92 and R93: a `convertMany` whose precondition holds and whose input elements hold values completes. Element `k` of
the output range is `Convert` of element `k` of the input range, and nothing else changes but `pc`. -/
def Obligations.ConvertManyWritesConversions : Prop :=
  ∀ (inOff outOff count : Nat) (s : State), fits inOff outOff count s → inputWritten inOff count s →
    ∃ t : State, exec (.convertMany inOff outOff count) s = .next t ∧
      t.pc = s.pc + 1 ∧ t.results = s.results ∧ t.fault = s.fault ∧ t.IN = s.IN ∧ t.prog = s.prog ∧
      t.OUT.len = s.OUT.len ∧
      (∀ k, k < count → ∃ w, s.IN.read (inOff + k) = .value w ∧ t.OUT.read (outOff + k) = .value (convert w)) ∧
      (∀ j, ¬ writesElement outOff count j → t.OUT.read j = s.OUT.read j) ∧
      (count = 0 → t = { s with pc := s.pc + 1 })

/-- 41_convert_many.md sections 2 and 3 (R89, R93, R99): with `count = 0` the command completes whatever the offsets. Where
R119 seems to ask more of the caller the model follows these rules (log entry 7). -/
def Obligations.EmptyConvertManyOnlyAdvances : Prop :=
  ∀ (inOff outOff : Nat) (s : State), exec (.convertMany inOff outOff 0) s = .next { s with pc := s.pc + 1 }

/-- R89: outside the bounds precondition the command takes BoundsViolation with its info and changes nothing else. It
runs only inside it, and `count = 0` is inside for any offsets. -/
def Obligations.BoundsViolationIsTaken : Prop :=
  ∀ (inOff outOff count : Nat) (s : State),
    (¬ fits inOff outOff count s →
      exec (.convertMany inOff outOff count) s =
        .next { s with fault := some (.boundsViolation inOff outOff count s.IN.len s.OUT.len) }) ∧
    (∀ t, s.fault = none → exec (.convertMany inOff outOff count) s = .next t → t.fault = none →
      fits inOff outOff count s) ∧
    (count = 0 → fits inOff outOff count s)

/-- R90: the first input element that holds `none` raises UninitialisedInput with its index, and nothing is written. -/
def Obligations.UninitialisedInputIsTaken : Prop :=
  ∀ (inOff outOff count k : Nat) (s : State), fits inOff outOff count s → k < count →
    s.IN.read (inOff + k) = .unwritten → (∀ l, l < k → ∃ v, s.IN.read (inOff + l) = .value v) →
      exec (.convertMany inOff outOff count) s =
        .next { s with fault := some (.uninitialisedInput (inOff + k)) }

/-- R101 and R105: the two causes, who raises them, when, with what info, and in which order; and a run records at most
one fault. -/
def Obligations.FaultCausesAndPriority : Prop :=
  (∀ (i : Instr) (s t : State) (r : FaultRecord), s.fault = none → exec i s = .next t → t.fault = some r →
    ∃ inOff outOff count, i = .convertMany inOff outOff count ∧
      ((r.cause = 1 ∧ r = .boundsViolation inOff outOff count s.IN.len s.OUT.len ∧
          (count > s.IN.len - inOff ∨ count > s.OUT.len - outOff)) ∨
       (r.cause = 2 ∧ ¬ (count > s.IN.len - inOff ∨ count > s.OUT.len - outOff) ∧
          ∃ k, k < count ∧ r = .uninitialisedInput (inOff + k) ∧ s.IN.read (inOff + k) = .unwritten ∧
            ∀ l, l < k → s.IN.read (inOff + l) ≠ .unwritten))) ∧
  ∀ (n : Nat) (s t : State) (r : FaultRecord), s.fault = some r → runSteps n s = .next t → t.fault = some r

/-- R102: a command that faults changes `fault` and nothing else. -/
def Obligations.FaultingCommandChangesOnlyFault : Prop :=
  ∀ (i : Instr) (s t : State), s.fault = none → exec i s = .next t → t.fault ≠ none →
    t = { s with fault := t.fault }

/-- 20_memory.md section 2 (R34, R35) and 60_exceptions.md section 1: every command has a next state in every state; no
access ever names an element outside its buffer. -/
def Obligations.EveryCommandHasNextState : Prop :=
  ∀ (i : Instr) (s : State), ∃ t : State, exec i s = .next t

/-! ### Steps and runs -/

/-- 60_exceptions.md section 1 (R103, R104): with a fault recorded no command executes, the state is never final, and the
record is never cleared; `pc` keeps naming the command that faulted; a launch starts without a fault. That `step` then
answers a stop named faultRecorded is the model's (DEDUCED, log entry 6): the spec says that no step exists. -/
def Obligations.FaultedStateIsStuck : Prop :=
  (∀ s : State, s.fault ≠ none → step s = .fault .faultRecorded ∧ ¬ s.final) ∧
  (∀ s t : State, step s = .next t → s.fault = none ∧ (t.fault ≠ none → t.pc = s.pc)) ∧
  (∀ (n : Nat) (s t : State), s.fault ≠ none → runSteps n s = .next t → t = s) ∧
  ∀ (prog : List Cmd) (input : Memory 32) (output : Memory 16), (State.launch prog input output).fault = none

/-- 41_convert_many.md section 4 (R98): no operation transfers control. A completed command advances `pc` by exactly 1,
and a faulted one stops the run. That `step` then answers a stop named faultRecorded is the model's (DEDUCED, log entry
6). -/
def Obligations.CompletedCommandAdvancesByOne : Prop :=
  ∀ s t : State, step s = .next t →
    (t.fault = none → t.pc = s.pc + 1) ∧ (t.fault ≠ none → t.pc = s.pc ∧ step t = .fault .faultRecorded)

/-- R116: the launch state. -/
def Obligations.LaunchStateValues : Prop :=
  ∀ (prog : List Cmd) (input : Memory 32) (output : Memory 16),
    (State.launch prog input output).pc = 0 ∧ (State.launch prog input output).results = [] ∧
    (State.launch prog input output).fault = none ∧ (State.launch prog input output).IN = input ∧
    (State.launch prog input output).OUT = output ∧ (State.launch prog input output).prog = prog

/-- 70_reset_and_hazards.md section 1 (R117, R118): a launch starts at command 0, and a final state has no step. The names
of the two stops without a command are the model's choice (log entry 6). -/
def Obligations.RunBeginsAtCommandZeroAndEnds : Prop :=
  (∀ (c : Cmd) (prog : List Cmd) (input : Memory 32) (output : Memory 16),
    step (State.launch (c :: prog) input output) = exec (decode c) (State.launch (c :: prog) input output)) ∧
  ∀ s : State, step s = .fault .runComplete ↔ s.final

/-- R29: no step changes the configuration `prog`, `IN_LEN`, `OUT_LEN`, over any run; `IN` keeps its launch value too. -/
def Obligations.ConfigurationAndInputNeverChange : Prop :=
  ∀ (n : Nat) (s t : State), runSteps n s = .next t →
    t.prog = s.prog ∧ t.IN.len = s.IN.len ∧ t.OUT.len = s.OUT.len ∧ t.IN = s.IN

/-- 10_state.md section 2 (R19): the result trace only grows, by one conversion per `convertOne`, and `convertMany` leaves
it. -/
def Obligations.OnlyConvertOneWritesResults : Prop :=
  ∀ (i : Instr) (s t : State), exec i s = .next t →
    (∃ bits32, i = .convertOne bits32 ∧ t.results = s.results ++ [convert bits32]) ∨
    (∃ inOff outOff count, i = .convertMany inOff outOff count ∧ t.results = s.results)

/-- R94: `convertMany` writes no element of `IN`, reads no element of `OUT`, and no old value of `OUT` influences a
result. -/
def Obligations.OldOutputNeverInfluences : Prop :=
  ∀ (inOff outOff count : Nat) (s t t' : State) (output : Memory 16), s.fault = none →
    output.len = s.OUT.len →
    exec (.convertMany inOff outOff count) s = .next t →
    exec (.convertMany inOff outOff count) { s with OUT := output } = .next t' →
      t.IN = s.IN ∧ t'.IN = t.IN ∧ t'.pc = t.pc ∧ t'.fault = t.fault ∧ t'.results = t.results ∧
      (t.fault = none → ∀ j, writesElement outOff count j → t'.OUT.read j = t.OUT.read j)

/-- 41_convert_many.md section 4 (R97): lane `k` depends on input element `in_off + k` alone. -/
def Obligations.LanesAreIndependent : Prop :=
  ∀ (inOff outOff count k : Nat) (s s' t t' : State), s.fault = none → s'.fault = none → k < count →
    s'.IN.read (inOff + k) = s.IN.read (inOff + k) →
    exec (.convertMany inOff outOff count) s = .next t → t.fault = none →
    exec (.convertMany inOff outOff count) s' = .next t' → t'.fault = none →
      t'.OUT.read (outOff + k) = t.OUT.read (outOff + k)

/-- 20_memory.md section 3 (R39): the second of two equal commands writes exactly what the first wrote. -/
def Obligations.RepeatedConvertManyWritesSame : Prop :=
  ∀ (inOff outOff count : Nat) (s t : State), s.OUT.wf → s.fault = none →
    exec (.convertMany inOff outOff count) s = .next t → t.fault = none →
      exec (.convertMany inOff outOff count) t = .next { t with pc := t.pc + 1 }

/-- 41_convert_many.md section 4 (R96): a bulk conversion writes to `OUT`, in order, what a run of one `convertOne` per
input word appends to `results`. -/
def Obligations.BulkEqualsScalarRun : Prop :=
  ∀ (inOff outOff count : Nat) (s t : State) (ws : List Bits32) (input : Memory 32) (output : Memory 16),
    s.fault = none → exec (.convertMany inOff outOff count) s = .next t → t.fault = none →
    ws.length = count → (∀ k w, ws[k]? = some w → s.IN.read (inOff + k) = .value w) →
      ∃ u : State,
        runSteps count (State.launch (ws.map fun w => encode (.convertOne w)) input output) = .next u ∧ u.final ∧
        u.results.length = count ∧ ∀ k v, u.results[k]? = some v → t.OUT.read (outOff + k) = .value v

/-- The invariant at every launch whose buffers are in canonical form, `State.reset` among them (20_memory.md, 10_state.md;
the contents of the launch of `State.reset` are the model's choice, log entry 4). -/
def Obligations.LaunchMeetsInvariant : Prop :=
  Inv State.reset ∧
  ∀ (prog : List Cmd) (input : Memory 32) (output : Memory 16), input.wf → output.wf →
    Inv (State.launch prog input output)

/-- Every step keeps the invariant: buffers in canonical form, `pc` within the program, and a recorded fault that is the
one the command at `pc` raises on these buffers (10_state.md R18, 60_exceptions.md R101, R107). -/
def Obligations.StepKeepsInvariant : Prop :=
  ∀ s t : State, Inv s → step s = .next t → Inv t

/-- 70_reset_and_hazards.md section 4 (R124): every run ends, finally or faulted, within the commands that are left. -/
def Obligations.EveryRunEnds : Prop :=
  ∀ s : State, s.fault = none → s.pc ≤ s.prog.length →
    ∃ (n : Nat) (t : State), n ≤ s.prog.length - s.pc ∧ runSteps n s = .next t ∧ (t.final ∨ t.fault ≠ none)

/-- 70_reset_and_hazards.md section 2 (R119): for a command that converts something, the caller's duties hold exactly when
the command completes. -/
def Obligations.CallerDutiesDecideCompletion : Prop :=
  ∀ (inOff outOff count : Nat) (s : State), s.fault = none → 0 < count →
    (CallerDuties inOff outOff count s ↔
      ∃ t : State, exec (.convertMany inOff outOff count) s = .next t ∧ t.fault = none)

/-! ### Embeddings -/

/-- 20_memory.md section 5 (R43 (a)) and 60_exceptions.md section 5 (R113): any number of callers, each with one command
that may complete or fault. Where no two of them write an element in common, their concurrent effect is that of running
them one after the other, in any order. A `convertOne` commutes with every command of every other caller, whatever it is.
That each caller has its own results and fault record is the model's choice (log entry 11). -/
def Obligations.DisjointInvocationsCommute : Prop :=
  (∀ (n : Nat) (sys : System) (agents order : List Nat), sys.OUT.wf → agents.Nodup →
    (∀ a ∈ agents, ∀ b ∈ agents, a ≠ b → ∀ j, ¬ (sys.writesAt a j ∧ sys.writesAt b j)) →
    order.Perm agents →
      sys.episode n (oneCommandEach agents) .quiet = order.foldl System.stepCaller sys) ∧
  ∀ (sys : System) (a b : Nat) (bits32 : Bits32), a ≠ b → sys.nextCommand a = some (.convertOne bits32) →
    (sys.stepCaller a).stepCaller b = (sys.stepCaller b).stepCaller a

/-- 20_memory.md section 5 (R43 (b)) and 70_reset_and_hazards.md section 3 (R121): after any number of callers executed one
command each concurrently, an element two or more of them wrote holds the draw, whatever it is, and so does an element
that one of them and another agent wrote. That every other element is as its one writer, or the start, left it, and how
a draw is numbered, is the model's choice (log entry 11). -/
def Obligations.OverlappedElementIsDrawn : Prop :=
  ∀ (n : Nat) (sys : System) (agents : List Nat) (writes : List (Nat × Bits16)) (j : Nat) (after : System),
    after = sys.episode n (oneCommandEach agents) { input := [], output := writes } →
    (∀ a ∈ agents, ∀ b ∈ agents, a ≠ b → sys.writesAt a j → sys.writesAt b j →
      after.OUT.read j = .value (Config.racedOutput n j)) ∧
    (∀ a ∈ agents, sys.writesAt a j → (∃ v, (j, v) ∈ writes) →
      after.OUT.read j = .value (Config.racedOutput n j)) ∧
    (∀ a ∈ agents, sys.writesAt a j → (∀ b ∈ agents, b ≠ a → ¬ sys.writesAt b j) → (¬ ∃ v, (j, v) ∈ writes) →
      after.OUT.read j = (sys.stepCaller a).OUT.read j) ∧
    ((∀ a ∈ agents, ¬ sys.writesAt a j) → after.OUT.read j = (sys.OUT.writeAll writes).read j)

/-- 20_memory.md section 5 (R43 (c)): a `convertMany` of one caller among any number, while other agents write `IN`. An
input element they write is read as the draw, whatever it is, and the others as they are; the command completes. The
output lanes stated are those no other caller's command names. That `IN` ends with the other agents' writes, and how a
draw is numbered, is the model's choice (log entry 11). -/
def Obligations.RacedInputIsDrawn : Prop :=
  ∀ (n : Nat) (sys : System) (agents : List Nat) (writes : List (Nat × Bits32)) (a inOff outOff count : Nat)
    (c : Caller) (after : System), a ∈ agents → sys.callers[a]? = some c →
    sys.nextCommand a = some (.convertMany inOff outOff count) →
    fits inOff outOff count (c.view sys.IN sys.OUT) →
    (∀ k, k < count → (∃ v, (inOff + k, v) ∈ writes) ∨ ∃ v, sys.IN.read (inOff + k) = .value v) →
    after = sys.episode n (oneCommandEach agents) { input := writes, output := [] } →
      after.IN = sys.IN.writeAll writes ∧ after.callers[a]? = some { c with pc := c.pc + 1 } ∧
      ∀ k, k < count → (∀ b ∈ agents, b ≠ a → ¬ sys.covers b (outOff + k)) →
        ((∃ v, (inOff + k, v) ∈ writes) →
          after.OUT.read (outOff + k) = .value (convert (Config.racedInput n a 0 (inOff + k)))) ∧
        ((¬ ∃ v, (inOff + k, v) ∈ writes) →
          ∃ v, sys.IN.read (inOff + k) = .value v ∧ after.OUT.read (outOff + k) = .value (convert v))

/-- 20_memory.md section 5 (R42): an episode with one caller and no other agent is a run of the machine: the later of two
commands that write an element leaves its value. The system around the machine is the model's choice (log entry 11). -/
def Obligations.OneCallerEpisodeIsRun : Prop :=
  ∀ (n k : Nat) (s t : State), s.OUT.wf → runSteps k s = .next t →
    ({ callers := [s.caller], IN := s.IN, OUT := s.OUT } : System).episode n (fun _ => k) .quiet =
      { callers := [t.caller], IN := t.IN, OUT := t.OUT }

/-- 20_memory.md section 3 (R37): laid out in bytes, in either byte order, no bit of an element of either space is lost.
Which byte stands where in each order is the model's choice (log entry 15): the low byte first in the little order, and
the reverse in the big one. -/
def Obligations.ElementBytesDetermineElement : Prop :=
  (∀ order : ByteOrder,
    (∀ v v' : Bits32, elementBytes order v = elementBytes order v' → v = v') ∧
    ∀ v v' : Bits16, elementBytes order v = elementBytes order v' → v = v') ∧
  (∀ v : Bits32,
    elementBytes .little v = [v.extractLsb' 0 8, v.extractLsb' 8 8, v.extractLsb' 16 8, v.extractLsb' 24 8] ∧
    elementBytes .big v = [v.extractLsb' 24 8, v.extractLsb' 16 8, v.extractLsb' 8 8, v.extractLsb' 0 8]) ∧
  ∀ v : Bits16,
    elementBytes .little v = [v.extractLsb' 0 8, v.extractLsb' 8 8] ∧
    elementBytes .big v = [v.extractLsb' 8 8, v.extractLsb' 0 8]
end

