-- ==== Sys2Proof/Laws/Assembler.lean ====
section
/-! SUPPORT. What the readers of the assembler syntax do with the text they look for. -/

namespace Sys2Proof.Machine

theorem dropWord_append (word text : List Char) : dropWord word (word ++ text) = some text := by
  induction word with
  | nil => rfl
  | cons c word ih => simp [dropWord, ih]

theorem skipBlanks_append {before : List Char} (h : ∀ c ∈ before, isBlank c = true) (text : List Char) :
    skipBlanks (before ++ text) = skipBlanks text := by
  induction before with
  | nil => rfl
  | cons c before ih =>
    have hc : isBlank c = true := h c (by simp)
    simp [skipBlanks, hc, ih fun d hd => h d (by simp [hd])]

theorem skipBlanks_cons {c : Char} (h : isBlank c = false) (text : List Char) :
    skipBlanks (c :: text) = c :: text := by
  simp [skipBlanks, h]

theorem stripComment_append {text : List Char} (h : '#' ∉ text) (rest : List Char) :
    stripComment (text ++ rest) = text ++ stripComment rest := by
  induction text with
  | nil => rfl
  | cons c text ih =>
    simp only [List.mem_cons, not_or] at h
    simp [stripComment, Ne.symm h.1, ih h.2]

theorem stripComment_comment (rest : List Char) : stripComment ('#' :: rest) = [] := by
  simp [stripComment]

end Sys2Proof.Machine
end

