-- ==== Sys2Proof/Laws/Convert.lean ====
section
/-! SUPPORT. The conversion by result class, in terms of the raw exponent, and the fields of a result. -/

namespace Sys2Proof.Machine

theorem rawExponent_lt (x : Bits32) : rawExponent x < 256 := (fp32Exponent x).isLt

theorem adjustedExponent_eq (x : Bits32) : adjustedExponent x = (rawExponent x : Int) - 112 := rfl

theorem classOf_eq_zero {x : Bits32} : classOf x = .zero ↔ rawExponent x ≤ 112 := by
  unfold classOf resultClass adjustedExponent clipLo clipHi rebias
  split_ifs <;> simp <;> omega

theorem classOf_eq_clip {x : Bits32} : classOf x = .clip ↔ 143 ≤ rawExponent x := by
  unfold classOf resultClass adjustedExponent clipLo clipHi rebias
  split_ifs <;> simp <;> omega

theorem classOf_eq_normal {x : Bits32} : classOf x = .normal ↔ 113 ≤ rawExponent x ∧ rawExponent x ≤ 142 := by
  unfold classOf resultClass adjustedExponent clipLo clipHi rebias
  split_ifs <;> simp <;> omega

theorem convert_of_zero {x : Bits32} (h : classOf x = .zero) : convert x = signField x := by
  simp [convert, h]

theorem convert_of_clip {x : Bits32} (h : classOf x = .clip) : convert x = signField x ||| inf16 := by
  simp [convert, h]

theorem convert_of_normal {x : Bits32} (h : classOf x = .normal) :
    convert x = signField x ||| exponentField (adjustedExponent x) ||| mantissaField x := by
  simp [convert, h]

end Sys2Proof.Machine
end

