-- ==== Sys2Proof/Laws/Memory.lean ====
section
/-! SUPPORT. What each buffer operation does, once: reads after writes, the canonical form, and equality of buffers
in canonical form. -/

namespace Sys2Proof.Machine

variable {w : Nat}

theorem Memory.lookup_insert_same (i : Nat) (v : BitVec w) (cells : List (Nat × BitVec w)) :
    Memory.lookup i (Memory.insert i v cells) = some v := by
  induction cells with
  | nil => simp [Memory.insert, Memory.lookup]
  | cons c rest ih =>
    obtain ⟨k, u⟩ := c
    simp only [Memory.insert]
    split
    · simp [Memory.lookup]
    · split
      · simp [Memory.lookup]
      · rename_i h
        simp [Memory.lookup, Ne.symm h, ih]

theorem Memory.lookup_insert_other {i j : Nat} (h : j ≠ i) (v : BitVec w) (cells : List (Nat × BitVec w)) :
    Memory.lookup j (Memory.insert i v cells) = Memory.lookup j cells := by
  induction cells with
  | nil => simp [Memory.insert, Memory.lookup, Ne.symm h]
  | cons c rest ih =>
    obtain ⟨k, u⟩ := c
    simp only [Memory.insert]
    split
    · simp [Memory.lookup, Ne.symm h]
    · split
      · rename_i hk
        subst hk
        simp [Memory.lookup, Ne.symm h]
      · simp [Memory.lookup, ih]

/-- A write succeeds inside the buffer, and gives this buffer. -/
theorem Memory.write_eq_some {m m' : Memory w} {j : Nat} {v : BitVec w} :
    m.write j v = some m' ↔ j < m.len ∧ m' = { m with cells := Memory.insert j v m.cells } := by
  unfold Memory.write
  split <;> simp_all [eq_comm]

theorem Memory.write_len {m m' : Memory w} {j : Nat} {v : BitVec w} (h : m.write j v = some m') :
    m'.len = m.len := by
  obtain ⟨-, rfl⟩ := Memory.write_eq_some.1 h
  rfl

theorem Memory.read_write_same {m m' : Memory w} {j : Nat} {v : BitVec w} (h : m.write j v = some m') :
    m'.read j = .value v := by
  obtain ⟨hj, rfl⟩ := Memory.write_eq_some.1 h
  simp [Memory.read, hj, Memory.lookup_insert_same]

theorem Memory.read_write_other {m m' : Memory w} {i j : Nat} {v : BitVec w} (h : m.write j v = some m')
    (hij : i ≠ j) : m'.read i = m.read i := by
  obtain ⟨-, rfl⟩ := Memory.write_eq_some.1 h
  simp [Memory.read, Memory.lookup_insert_other hij]

/-- Reading inside the buffer never answers `outside`. -/
theorem Memory.read_eq_outside {m : Memory w} {i : Nat} : m.read i = .outside ↔ m.len ≤ i := by
  unfold Memory.read
  split
  · split <;> simp <;> omega
  · simp; omega

/-- Every index an insertion lists was listed before or is the inserted one. -/
theorem Memory.mem_insert {i : Nat} {v : BitVec w} {cells : List (Nat × BitVec w)} {c : Nat × BitVec w}
    (h : c ∈ Memory.insert i v cells) : c = (i, v) ∨ c ∈ cells := by
  induction cells with
  | nil => simpa [Memory.insert] using h
  | cons d rest ih =>
    obtain ⟨k, u⟩ := d
    simp only [Memory.insert] at h
    split at h
    · simpa using h
    · split at h
      · simp only [List.mem_cons] at h ⊢; tauto
      · simp only [List.mem_cons] at h ⊢
        rcases h with h | h
        · exact Or.inr (Or.inl h)
        · rcases ih h with h | h <;> tauto

theorem Memory.insert_rising (i : Nat) (v : BitVec w) {cells : List (Nat × BitVec w)}
    (h : cells.Pairwise (fun a b => a.1 < b.1)) :
    (Memory.insert i v cells).Pairwise (fun a b => a.1 < b.1) := by
  induction cells with
  | nil => simp [Memory.insert]
  | cons d rest ih =>
    obtain ⟨k, u⟩ := d
    obtain ⟨hk, hrest⟩ := List.pairwise_cons.1 h
    simp only [Memory.insert]
    split
    · rename_i hik
      refine List.pairwise_cons.2 ⟨fun c hc => ?_, h⟩
      rcases List.mem_cons.1 hc with rfl | hc
      · exact hik
      · exact Nat.lt_trans hik (hk c hc)
    · split
      · rename_i hik
        subst hik
        exact List.pairwise_cons.2 ⟨hk, hrest⟩
      · refine List.pairwise_cons.2 ⟨fun c hc => ?_, ih hrest⟩
        rcases Memory.mem_insert hc with rfl | hc
        · show k < i; omega
        · exact hk c hc

/-- A write keeps the canonical form. -/
theorem Memory.write_wf {m m' : Memory w} {j : Nat} {v : BitVec w} (h : m.write j v = some m') (hm : m.wf) :
    m'.wf := by
  obtain ⟨hj, rfl⟩ := Memory.write_eq_some.1 h
  refine ⟨Memory.insert_rising j v hm.1, fun c hc => ?_⟩
  rcases Memory.mem_insert hc with rfl | hc
  · exact hj
  · exact hm.2 c hc

theorem Memory.unwritten_wf (w len : Nat) : (Memory.unwritten w len).wf := by
  simp [Memory.unwritten, Memory.wf]

/-- Every operation that writes a range keeps the length. -/
theorem Memory.writeRange_len {m m' : Memory w} {j : Nat} {vs : List (BitVec w)}
    (h : m.writeRange j vs = some m') : m'.len = m.len := by
  induction vs generalizing m j with
  | nil => simp_all [Memory.writeRange]
  | cons v vs ih =>
    simp only [Memory.writeRange] at h
    split at h
    · cases h
    · rename_i hw
      rw [ih h, Memory.write_len hw]

theorem Memory.writeRange_wf {m m' : Memory w} {j : Nat} {vs : List (BitVec w)}
    (h : m.writeRange j vs = some m') (hm : m.wf) : m'.wf := by
  induction vs generalizing m j with
  | nil =>
    simp only [Memory.writeRange, Option.some.injEq] at h
    exact h ▸ hm
  | cons v vs ih =>
    simp only [Memory.writeRange] at h
    split at h
    · cases h
    · rename_i hw
      exact ih h (Memory.write_wf hw hm)

/-- A range inside the buffer can be written. -/
theorem Memory.writeRange_isSome {m : Memory w} {j : Nat} {vs : List (BitVec w)}
    (h : vs = [] ∨ j + vs.length ≤ m.len) : ∃ m', m.writeRange j vs = some m' := by
  induction vs generalizing m j with
  | nil => exact ⟨m, rfl⟩
  | cons v vs ih =>
    simp only [List.length_cons, reduceCtorEq, false_or] at h
    have hw : m.write j v = some { m with cells := Memory.insert j v m.cells } :=
      Memory.write_eq_some.2 ⟨by omega, rfl⟩
    simp only [Memory.writeRange, hw]
    exact ih (Or.inr (by show j + 1 + vs.length ≤ m.len; omega))

/-- After a range is written, an element outside the range reads as before. -/
theorem Memory.read_writeRange_outside {m m' : Memory w} {j : Nat} {vs : List (BitVec w)}
    (h : m.writeRange j vs = some m') {i : Nat} (hi : i < j ∨ j + vs.length ≤ i) : m'.read i = m.read i := by
  induction vs generalizing m j with
  | nil => simp_all [Memory.writeRange]
  | cons v vs ih =>
    simp only [List.length_cons] at hi
    simp only [Memory.writeRange] at h
    split at h
    · cases h
    · rename_i hw
      rw [ih h (by omega), Memory.read_write_other hw (by omega)]

/-- After a range is written, element `j + k` reads as the `k`-th value. -/
theorem Memory.read_writeRange_inside {m m' : Memory w} {j : Nat} {vs : List (BitVec w)}
    (h : m.writeRange j vs = some m') {k : Nat} {v : BitVec w} (hk : vs[k]? = some v) :
    m'.read (j + k) = .value v := by
  induction vs generalizing m j k with
  | nil => simp at hk
  | cons u vs ih =>
    simp only [Memory.writeRange] at h
    split at h
    · cases h
    · rename_i hw
      cases k with
      | zero =>
        simp only [List.getElem?_cons_zero, Option.some.injEq] at hk
        subst hk
        rw [Memory.read_writeRange_outside h (by omega)]
        exact Memory.read_write_same hw
      | succ k =>
        have := ih h (k := k) (by simpa using hk)
        rwa [show j + (k + 1) = j + 1 + k by omega]

/-- A range reads as values exactly when every element of it holds its value. -/
theorem Memory.readRange_eq_values {m : Memory w} {i n : Nat} {vs : List (BitVec w)} :
    m.readRange i n = .values vs ↔ vs.length = n ∧ ∀ k v, vs[k]? = some v → m.read (i + k) = .value v := by
  induction n generalizing i vs with
  | zero =>
    simp only [Memory.readRange, Elements.values.injEq]
    constructor
    · rintro rfl; simp
    · rintro ⟨h, -⟩; exact (List.length_eq_zero_iff.1 h).symm
  | succ n ih =>
    simp only [Memory.readRange]
    constructor
    · intro h
      split at h
      · cases h
      · cases h
      · rename_i v hv
        split at h
        · rename_i us hus
          simp only [Elements.values.injEq] at h
          subst h
          obtain ⟨hl, hr⟩ := ih.1 hus
          refine ⟨by simp [hl], fun k u hk => ?_⟩
          cases k with
          | zero => simp only [List.getElem?_cons_zero, Option.some.injEq] at hk; subst hk; exact hv
          | succ k =>
            rw [show i + (k + 1) = i + 1 + k by omega]
            exact hr k u (by simpa using hk)
        · cases h
        · cases h
    · rintro ⟨hl, hr⟩
      cases vs with
      | nil => simp at hl
      | cons v vs =>
        have h0 := hr 0 v (by simp)
        have hrest : m.readRange (i + 1) n = .values vs :=
          ih.2 ⟨by simpa using hl, fun k u hk => by
            rw [show i + 1 + k = i + (k + 1) by omega]
            exact hr (k + 1) u (by simpa using hk)⟩
        simp only [Nat.add_zero] at h0
        simp [h0, hrest]

/-- A range reads as unwritten exactly at its first element that holds no value. -/
theorem Memory.readRange_eq_unwritten {m : Memory w} {i n e : Nat} :
    m.readRange i n = .unwritten e ↔
      ∃ k, k < n ∧ e = i + k ∧ m.read e = .unwritten ∧ ∀ l, l < k → ∃ v, m.read (i + l) = .value v := by
  induction n generalizing i with
  | zero => simp [Memory.readRange]
  | succ n ih =>
    simp only [Memory.readRange]
    constructor
    · intro h
      split at h
      · cases h
      · rename_i hu
        simp only [Elements.unwritten.injEq] at h
        subst h
        exact ⟨0, by omega, by omega, hu, by omega⟩
      · rename_i v hv
        split at h
        · cases h
        · cases h
        · rename_i e' he'
          simp only [Elements.unwritten.injEq] at h
          subst h
          obtain ⟨k, hk, rfl, hu, hl⟩ := ih.1 he'
          refine ⟨k + 1, by omega, by omega, hu, fun l hlk => ?_⟩
          cases l with
          | zero => exact ⟨v, hv⟩
          | succ l =>
            obtain ⟨u, hu'⟩ := hl l (by omega)
            exact ⟨u, by rwa [show i + (l + 1) = i + 1 + l by omega]⟩
    · rintro ⟨k, hk, rfl, hu, hl⟩
      cases k with
      | zero => simp only [Nat.add_zero] at hu ⊢; simp [hu]
      | succ k =>
        obtain ⟨v, hv⟩ := hl 0 (by omega)
        simp only [Nat.add_zero] at hv
        have hrest : m.readRange (i + 1) n = .unwritten (i + (k + 1)) :=
          ih.2 ⟨k, by omega, by omega, hu, fun l hlk => by
            obtain ⟨u, hu'⟩ := hl (l + 1) (by omega)
            exact ⟨u, by rwa [show i + 1 + l = i + (l + 1) by omega]⟩⟩
        simp [hv, hrest]

/-- A range inside the buffer is never read outside it. -/
theorem Memory.readRange_ne_outside {m : Memory w} {i n : Nat} (h : n ≤ m.len - i) (e : Nat) :
    m.readRange i n ≠ .outside e := by
  induction n generalizing i with
  | zero => simp [Memory.readRange]
  | succ n ih =>
    have hin : m.read i ≠ .outside := fun ho => by have := Memory.read_eq_outside.1 ho; omega
    have hrest := @ih (i + 1) (by omega)
    simp only [Memory.readRange]
    split <;> simp_all
    split <;> simp_all

/-- In a list of rising indices, an index below all of them is not listed. -/
theorem Memory.lookup_below {cells : List (Nat × BitVec w)} {i : Nat} (h : ∀ c ∈ cells, i < c.1) :
    Memory.lookup i cells = none := by
  induction cells with
  | nil => rfl
  | cons c rest ih =>
    obtain ⟨k, u⟩ := c
    have hk : i < k := h (k, u) (by simp)
    have : k ≠ i := by omega
    simp [Memory.lookup, this, ih (fun c hc => h c (by simp [hc]))]

/-- Two lists of rising indices that list the same value for every index are equal. -/
theorem Memory.cells_ext {a b : List (Nat × BitVec w)} (ha : a.Pairwise (fun c d => c.1 < d.1))
    (hb : b.Pairwise (fun c d => c.1 < d.1)) (h : ∀ i, Memory.lookup i a = Memory.lookup i b) : a = b := by
  induction a generalizing b with
  | nil =>
    cases b with
    | nil => rfl
    | cons d _ => have := h d.1; simp [Memory.lookup] at this
  | cons c as ih =>
    cases b with
    | nil => have := h c.1; simp [Memory.lookup] at this
    | cons d bs =>
      obtain ⟨k, u⟩ := c
      obtain ⟨l, v⟩ := d
      obtain ⟨hc, has⟩ := List.pairwise_cons.1 ha
      obtain ⟨hd, hbs⟩ := List.pairwise_cons.1 hb
      have hkl : k = l := by
        rcases Nat.lt_trichotomy k l with hlt | heq | hlt
        · have := h k
          rw [Memory.lookup_below (cells := (l, v) :: bs) (by
            intro e he
            rcases List.mem_cons.1 he with rfl | he
            · exact hlt
            · exact Nat.lt_trans hlt (hd e he))] at this
          simp [Memory.lookup] at this
        · exact heq
        · have := h l
          rw [Memory.lookup_below (cells := (k, u) :: as) (by
            intro e he
            rcases List.mem_cons.1 he with rfl | he
            · exact hlt
            · exact Nat.lt_trans hlt (hc e he))] at this
          simp [Memory.lookup] at this
      subst hkl
      have huv : u = v := by have := h k; simpa [Memory.lookup] using this
      subst huv
      refine congrArg _ (ih has hbs fun i => ?_)
      by_cases hi : k = i
      · subst hi
        rw [Memory.lookup_below (fun e he => hc e he), Memory.lookup_below (fun e he => hd e he)]
      · have := h i
        simpa [Memory.lookup, hi] using this

/-- Two buffers in canonical form with the same length and the same elements are equal. -/
theorem Memory.ext_of_wf {a b : Memory w} (ha : a.wf) (hb : b.wf) (hlen : a.len = b.len)
    (h : ∀ i, a.read i = b.read i) : a = b := by
  obtain ⟨al, ac⟩ := a
  obtain ⟨bl, bc⟩ := b
  simp only at hlen
  subst hlen
  refine congrArg _ (Memory.cells_ext ha.1 hb.1 fun i => ?_)
  by_cases hi : i < al
  · have := h i
    simp only [Memory.read, hi, if_true] at this
    revert this
    cases Memory.lookup i ac <;> cases Memory.lookup i bc <;> simp
  · have off : ∀ cells : List (Nat × BitVec w), (∀ c ∈ cells, c.1 < al) → Memory.lookup i cells = none := by
      intro cells hc
      induction cells with
      | nil => rfl
      | cons c rest ih =>
        obtain ⟨k, u⟩ := c
        have hk : k < al := hc (k, u) (by simp)
        have : k ≠ i := by omega
        simp [Memory.lookup, this, ih (fun c hc' => hc c (by simp [hc']))]
    rw [off ac ha.2, off bc hb.2]

end Sys2Proof.Machine
end

