-- ==== Sys2Proof/Laws/State.lean ====
section
/-! SUPPORT. One lemma per field per update of the state, so that no proof unfolds a record update. -/

namespace Sys2Proof.Machine

@[simp] theorem State.launch_pc (prog : List Cmd) (input : Memory 32) (output : Memory 16) :
    (State.launch prog input output).pc = 0 := rfl

@[simp] theorem State.launch_results (prog : List Cmd) (input : Memory 32) (output : Memory 16) :
    (State.launch prog input output).results = [] := rfl

@[simp] theorem State.launch_fault (prog : List Cmd) (input : Memory 32) (output : Memory 16) :
    (State.launch prog input output).fault = none := rfl

@[simp] theorem State.launch_IN (prog : List Cmd) (input : Memory 32) (output : Memory 16) :
    (State.launch prog input output).IN = input := rfl

@[simp] theorem State.launch_OUT (prog : List Cmd) (input : Memory 32) (output : Memory 16) :
    (State.launch prog input output).OUT = output := rfl

@[simp] theorem State.launch_prog (prog : List Cmd) (input : Memory 32) (output : Memory 16) :
    (State.launch prog input output).prog = prog := rfl

@[simp] theorem State.advance_pc (s : State) : (s.advance).pc = s.pc + 1 := rfl

@[simp] theorem State.advance_results (s : State) : (s.advance).results = s.results := rfl

@[simp] theorem State.advance_fault (s : State) : (s.advance).fault = s.fault := rfl

@[simp] theorem State.advance_IN (s : State) : (s.advance).IN = s.IN := rfl

@[simp] theorem State.advance_OUT (s : State) : (s.advance).OUT = s.OUT := rfl

@[simp] theorem State.advance_prog (s : State) : (s.advance).prog = s.prog := rfl

@[simp] theorem State.appendResult_pc (s : State) (v : Bits16) : (s.appendResult v).pc = s.pc := rfl

@[simp] theorem State.appendResult_results (s : State) (v : Bits16) : (s.appendResult v).results = s.results ++ [v] := rfl

@[simp] theorem State.appendResult_fault (s : State) (v : Bits16) : (s.appendResult v).fault = s.fault := rfl

@[simp] theorem State.appendResult_IN (s : State) (v : Bits16) : (s.appendResult v).IN = s.IN := rfl

@[simp] theorem State.appendResult_OUT (s : State) (v : Bits16) : (s.appendResult v).OUT = s.OUT := rfl

@[simp] theorem State.appendResult_prog (s : State) (v : Bits16) : (s.appendResult v).prog = s.prog := rfl

@[simp] theorem State.setOutput_pc (s : State) (m : Memory 16) : (s.setOutput m).pc = s.pc := rfl

@[simp] theorem State.setOutput_results (s : State) (m : Memory 16) : (s.setOutput m).results = s.results := rfl

@[simp] theorem State.setOutput_fault (s : State) (m : Memory 16) : (s.setOutput m).fault = s.fault := rfl

@[simp] theorem State.setOutput_IN (s : State) (m : Memory 16) : (s.setOutput m).IN = s.IN := rfl

@[simp] theorem State.setOutput_OUT (s : State) (m : Memory 16) : (s.setOutput m).OUT = m := rfl

@[simp] theorem State.setOutput_prog (s : State) (m : Memory 16) : (s.setOutput m).prog = s.prog := rfl

@[simp] theorem State.raise_pc (s : State) (r : FaultRecord) : (s.raise r).pc = s.pc := rfl

@[simp] theorem State.raise_results (s : State) (r : FaultRecord) : (s.raise r).results = s.results := rfl

@[simp] theorem State.raise_fault (s : State) (r : FaultRecord) : (s.raise r).fault = some r := rfl

@[simp] theorem State.raise_IN (s : State) (r : FaultRecord) : (s.raise r).IN = s.IN := rfl

@[simp] theorem State.raise_OUT (s : State) (r : FaultRecord) : (s.raise r).OUT = s.OUT := rfl

@[simp] theorem State.raise_prog (s : State) (r : FaultRecord) : (s.raise r).prog = s.prog := rfl

@[simp] theorem State.placeCommand_pc (s : State) (c : Cmd) : (s.placeCommand c).pc = s.pc := rfl

@[simp] theorem State.placeCommand_results (s : State) (c : Cmd) : (s.placeCommand c).results = s.results := rfl

@[simp] theorem State.placeCommand_IN (s : State) (c : Cmd) : (s.placeCommand c).IN = s.IN := rfl

@[simp] theorem State.placeCommand_OUT (s : State) (c : Cmd) : (s.placeCommand c).OUT = s.OUT := rfl

@[simp] theorem State.placeCommand_fault (s : State) (c : Cmd) : (s.placeCommand c).fault = none := rfl

/-- The placed command is the one at `pc`. -/
theorem State.placeCommand_prog_pc (s : State) (c : Cmd) : (s.placeCommand c).prog[s.pc]? = some c := by
  have hlen : (s.prog.take s.pc ++ List.replicate (s.pc - s.prog.length) c).length = s.pc := by
    simp only [List.length_append, List.length_take, List.length_replicate]; omega
  simp only [State.placeCommand]
  rw [List.getElem?_append_right (by omega), hlen]
  simp

end Sys2Proof.Machine
end

