-- ==== Sys2Proof/Laws/Exec.lean ====
section
/-! SUPPORT. What a command and a step can do, once: later proofs cite these and unfold no meaning. -/

namespace Sys2Proof.Machine

theorem inBounds_iff {inOff outOff count : Nat} {s : State} :
    inBounds inOff outOff count s = true ↔ count ≤ s.IN.len - inOff ∧ count ≤ s.OUT.len - outOff := by
  simp [inBounds]

/-- The three things a `convertMany` can do: take BoundsViolation, take UninitialisedInput at the first element
without a value, or write the converted words and advance. It never stops. -/
theorem execConvertMany_cases (inOff outOff count : Nat) (s : State) :
    (¬ (count ≤ s.IN.len - inOff ∧ count ≤ s.OUT.len - outOff) ∧
      execConvertMany inOff outOff count s =
        .next (s.raise (.boundsViolation inOff outOff count s.IN.len s.OUT.len))) ∨
    ((count ≤ s.IN.len - inOff ∧ count ≤ s.OUT.len - outOff) ∧
      ((∃ i, s.IN.readRange inOff count = .unwritten i ∧
          execConvertMany inOff outOff count s = .next (s.raise (.uninitialisedInput i))) ∨
        ∃ ws output, s.IN.readRange inOff count = .values ws ∧
          s.OUT.writeRange outOff (ws.map convert) = some output ∧
          execConvertMany inOff outOff count s = .next (s.setOutput output).advance)) := by
  by_cases hb : inBounds inOff outOff count s = true
  · have hb' := inBounds_iff.1 hb
    refine Or.inr ⟨hb', ?_⟩
    simp only [execConvertMany, hb, if_true]
    cases hr : s.IN.readRange inOff count with
    | outside e => exact absurd hr (Memory.readRange_ne_outside hb'.1 e)
    | unwritten i => exact Or.inl ⟨i, rfl, rfl⟩
    | values ws =>
      have hl := (Memory.readRange_eq_values.1 hr).1
      obtain ⟨output, ho⟩ := Memory.writeRange_isSome (m := s.OUT) (j := outOff) (vs := ws.map convert) (by
        rcases Nat.eq_zero_or_pos count with h0 | h0
        · left; rw [← hl] at h0; simpa [List.length_eq_zero_iff] using h0
        · right; simp only [List.length_map]; omega)
      exact Or.inr ⟨ws, output, rfl, ho, by simp [ho]⟩
  · refine Or.inl ⟨fun h => hb (inBounds_iff.2 h), ?_⟩
    simp only [execConvertMany, hb]
    rfl

/-- When `fetch` answers a command: no fault is recorded and it is the one at `pc`. -/
theorem fetch_eq_next {s : State} {c : Cmd} : fetch s = .next c ↔ s.fault = none ∧ s.prog[s.pc]? = some c := by
  unfold fetch
  cases s.fault with
  | some r => simp
  | none =>
    cases s.prog[s.pc]? with
    | some d => simp
    | none => by_cases h : s.pc = s.prog.length <;> simp [h]

/-- A step that answers a next state ran the decoded command at `pc`, with no fault recorded before it. -/
theorem step_eq_next {s t : State} :
    step s = .next t ↔ ∃ c, s.fault = none ∧ s.prog[s.pc]? = some c ∧ exec (decode c) s = .next t := by
  unfold step
  constructor
  · intro h
    cases hf : fetch s with
    | next c =>
      rw [hf] at h
      obtain ⟨h1, h2⟩ := fetch_eq_next.1 hf
      exact ⟨c, h1, h2, h⟩
    | fault r => rw [hf] at h; cases h
    | refused r => rw [hf] at h; cases h
  · rintro ⟨c, h1, h2, h3⟩
    rw [fetch_eq_next.2 ⟨h1, h2⟩]
    exact h3

/-- The very next step from `withFetchWord` runs the table word's command. -/
theorem step_withFetchWord (s : State) (nbits w : Nat) :
    step (s.withFetchWord nbits w) = exec (decode (tableCommand nbits w)) (s.withFetchWord nbits w) := by
  have h : fetch (s.withFetchWord nbits w) = .next (tableCommand nbits w) :=
    fetch_eq_next.2 ⟨rfl, State.placeCommand_prog_pc s _⟩
  simp only [step, h]

/-- No step, no change. -/
@[simp] theorem runSteps_zero (s : State) : runSteps 0 s = .next s := rfl

/-- A run is its first step and the run from there, if that step exists. -/
theorem runSteps_succ (n : Nat) (s : State) :
    runSteps (n + 1) s =
      match step s with
      | .next t => runSteps n t
      | .fault r => .fault r
      | .refused r => .refused r := by
  simp only [runSteps, Host.Core.run]
  rw [show Sys2Proof.core.step s = step s from rfl]
  cases step s <;> rfl

end Sys2Proof.Machine
end

