-- ==== Sys2Proof/Laws/Embedding.lean ====
section
/-! SUPPORT. What the operations of an embedding do: a caller's view, one command of a caller on its private output, the
merge of what concurrent agents wrote. -/

namespace Sys2Proof.Machine

@[simp] theorem Caller.view_pc (c : Caller) (i : Memory 32) (o : Memory 16) : (c.view i o).pc = c.pc := rfl

@[simp] theorem Caller.view_results (c : Caller) (i : Memory 32) (o : Memory 16) :
    (c.view i o).results = c.results := rfl

@[simp] theorem Caller.view_fault (c : Caller) (i : Memory 32) (o : Memory 16) : (c.view i o).fault = c.fault := rfl

@[simp] theorem Caller.view_IN (c : Caller) (i : Memory 32) (o : Memory 16) : (c.view i o).IN = i := rfl

@[simp] theorem Caller.view_OUT (c : Caller) (i : Memory 32) (o : Memory 16) : (c.view i o).OUT = o := rfl

@[simp] theorem Caller.view_prog (c : Caller) (i : Memory 32) (o : Memory 16) : (c.view i o).prog = c.prog := rfl

@[simp] theorem Caller.caller_view (c : Caller) (i : Memory 32) (o : Memory 16) : (c.view i o).caller = c := rfl

@[simp] theorem State.view_caller (s : State) : s.caller.view s.IN s.OUT = s := rfl

theorem Memory.writeAll_len {w : Nat} (m : Memory w) (cells : List (Nat × BitVec w)) :
    (m.writeAll cells).len = m.len := by
  induction cells generalizing m with
  | nil => rfl
  | cons c cells ih =>
    simp only [Memory.writeAll]
    split
    · rename_i m' hw
      rw [ih, Memory.write_len hw]
    · exact ih m

theorem Memory.writeAll_wf {w : Nat} {m : Memory w} (hm : m.wf) (cells : List (Nat × BitVec w)) :
    (m.writeAll cells).wf := by
  induction cells generalizing m with
  | nil => exact hm
  | cons c cells ih =>
    simp only [Memory.writeAll]
    split
    · rename_i m' hw
      exact ih (Memory.write_wf hw hm)
    · exact ih hm

/-- An element no write names reads as before. -/
theorem Memory.read_writeAll_other {w : Nat} (m : Memory w) (cells : List (Nat × BitVec w)) {i : Nat}
    (h : ∀ c ∈ cells, c.1 ≠ i) : (m.writeAll cells).read i = m.read i := by
  induction cells generalizing m with
  | nil => rfl
  | cons c cells ih =>
    have hrest : ∀ d ∈ cells, d.1 ≠ i := fun d hd => h d (by simp [hd])
    have hc : c.1 ≠ i := h c (by simp)
    simp only [Memory.writeAll]
    split
    · rename_i m' hw
      rw [ih m' hrest, Memory.read_write_other hw (Ne.symm hc)]
    · exact ih m hrest

/-- Where all writes to an element of the buffer write one value, it reads as that value. -/
theorem Memory.read_writeAll_same {w : Nat} (m : Memory w) (cells : List (Nat × BitVec w)) {i : Nat} {v : BitVec w}
    (hi : i < m.len) (hmem : (i, v) ∈ cells) (h : ∀ u, (i, u) ∈ cells → u = v) :
    (m.writeAll cells).read i = .value v := by
  induction cells generalizing m with
  | nil => simp at hmem
  | cons c cells ih =>
    have hrest : ∀ u, (i, u) ∈ cells → u = v := fun u hu => h u (by simp [hu])
    by_cases hin : ∃ u, (i, u) ∈ cells
    · obtain ⟨u, hu⟩ := hin
      have hmem' : (i, v) ∈ cells := hrest u hu ▸ hu
      simp only [Memory.writeAll]
      split
      · rename_i m' hw
        exact ih m' (by rw [Memory.write_len hw]; exact hi) hmem' hrest
      · exact ih m hi hmem' hrest
    · have hc : c = (i, v) := by
        rcases List.mem_cons.1 hmem with h' | h'
        · exact h'.symm
        · exact absurd ⟨v, h'⟩ hin
      subst hc
      have hw : m.write i v = some { m with cells := Memory.insert i v m.cells } :=
        Memory.write_eq_some.2 ⟨hi, rfl⟩
      simp only [Memory.writeAll, hw]
      rw [Memory.read_writeAll_other _ _ (by
        rintro ⟨k, u⟩ hd rfl
        exact hin ⟨u, hd⟩)]
      exact Memory.read_write_same hw

/-- In the canonical form an index is listed exactly with its value. -/
theorem Memory.mem_cells_iff {w : Nat} {cells : List (Nat × BitVec w)}
    (h : cells.Pairwise (fun a b => a.1 < b.1)) {i : Nat} {v : BitVec w} :
    (i, v) ∈ cells ↔ Memory.lookup i cells = some v := by
  induction cells with
  | nil => simp [Memory.lookup]
  | cons c rest ih =>
    obtain ⟨k, u⟩ := c
    obtain ⟨hk, hrest⟩ := List.pairwise_cons.1 h
    simp only [List.mem_cons, Prod.mk.injEq, Memory.lookup]
    by_cases hki : k = i
    · subst hki
      have hno : (k, v) ∉ rest := fun hm => Nat.lt_irrefl k (hk _ hm)
      simp [hno, eq_comm]
    · simp [hki, Ne.symm hki, ih hrest]

theorem writerCount_eq_zero {effects : List (Memory 16)} {j : Nat} :
    writerCount effects j = 0 ↔ ∀ e ∈ effects, Memory.lookup j e.cells = none := by
  simp [writerCount, List.filter_eq_nil_iff]

/-- With at most one writer, every agent that lists the element lists the same value. -/
theorem writerCount_le_one {effects : List (Memory 16)} {j : Nat} (h : writerCount effects j ≤ 1)
    {e f : Memory 16} (he : e ∈ effects) (hf : f ∈ effects) {v u : Bits16}
    (hv : Memory.lookup j e.cells = some v) (hu : Memory.lookup j f.cells = some u) : u = v := by
  have me : e ∈ effects.filter fun e => (Memory.lookup j e.cells).isSome := by simp [he, hv]
  have mf : f ∈ effects.filter fun e => (Memory.lookup j e.cells).isSome := by simp [hf, hu]
  have hef : f = e := by
    unfold writerCount at h
    match hl : effects.filter fun e => (Memory.lookup j e.cells).isSome with
    | [] => rw [hl] at me; simp at me
    | [x] => rw [hl] at me mf; simp only [List.mem_singleton] at me mf; rw [me, mf]
    | x :: y :: rest => rw [hl] at h; simp only [List.length_cons] at h; omega
  rw [hef, hv] at hu
  exact (Option.some.inj hu).symm

/-- The listed writes of a merge to one element. -/
theorem mem_mergeEffects {n : Nat} {effects : List (Memory 16)} (hwf : ∀ e ∈ effects, e.wf) {j : Nat} {v : Bits16} :
    (j, v) ∈ ((effects.flatMap fun e => e.cells).map fun c =>
        (c.1, if writerCount effects c.1 ≤ 1 then c.2 else Config.racedOutput n c.1)) ↔
      ∃ e ∈ effects, ∃ u, Memory.lookup j e.cells = some u ∧
        v = if writerCount effects j ≤ 1 then u else Config.racedOutput n j := by
  simp only [List.mem_map, List.mem_flatMap, Prod.mk.injEq]
  constructor
  · rintro ⟨⟨k, u⟩, ⟨e, he, hm⟩, rfl, rfl⟩
    exact ⟨e, he, u, (Memory.mem_cells_iff (hwf e he).1).1 hm, rfl⟩
  · rintro ⟨e, he, u, hl, rfl⟩
    exact ⟨(j, u), ⟨e, he, (Memory.mem_cells_iff (hwf e he).1).2 hl⟩, rfl, rfl⟩

/-- An element no agent wrote is untouched. -/
theorem read_mergeEffects_none {n : Nat} {output : Memory 16} {effects : List (Memory 16)}
    (hwf : ∀ e ∈ effects, e.wf) {j : Nat} (h : ∀ e ∈ effects, Memory.lookup j e.cells = none) :
    (mergeEffects n output effects).read j = output.read j := by
  refine Memory.read_writeAll_other _ _ ?_
  rintro ⟨k, v⟩ hc rfl
  obtain ⟨e, he, u, hl, -⟩ := (mem_mergeEffects hwf).1 hc
  rw [h e he] at hl
  cases hl

/-- An element one agent wrote holds its value. -/
theorem read_mergeEffects_one {n : Nat} {output : Memory 16} {effects : List (Memory 16)}
    (hwf : ∀ e ∈ effects, e.wf) {j : Nat} (hj : j < output.len) (h : writerCount effects j ≤ 1) {e : Memory 16}
    (he : e ∈ effects) {v : Bits16} (hv : Memory.lookup j e.cells = some v) :
    (mergeEffects n output effects).read j = .value v := by
  refine Memory.read_writeAll_same _ _ hj ((mem_mergeEffects hwf).2 ⟨e, he, v, hv, by simp [h]⟩) fun u hu => ?_
  obtain ⟨f, hf, w, hw, rfl⟩ := (mem_mergeEffects hwf).1 hu
  simp [h, writerCount_le_one h he hf hv hw]

/-- An element two or more agents wrote holds the draw. -/
theorem read_mergeEffects_draw {n : Nat} {output : Memory 16} {effects : List (Memory 16)}
    (hwf : ∀ e ∈ effects, e.wf) {j : Nat} (hj : j < output.len) (h : 2 ≤ writerCount effects j) :
    (mergeEffects n output effects).read j = .value (Config.racedOutput n j) := by
  have hn : ¬ writerCount effects j ≤ 1 := by omega
  have hex : ∃ e ∈ effects, ∃ u, Memory.lookup j e.cells = some u := by
    by_contra hno
    have : writerCount effects j = 0 := writerCount_eq_zero.2 fun e he => by
      cases hl : Memory.lookup j e.cells with
      | none => rfl
      | some u => exact absurd ⟨e, he, u, hl⟩ hno
    omega
  obtain ⟨e, he, u, hl⟩ := hex
  refine Memory.read_writeAll_same _ _ hj ((mem_mergeEffects hwf).2 ⟨e, he, u, hl, by simp [hn]⟩) fun w hw => ?_
  obtain ⟨f, hf, x, hx, rfl⟩ := (mem_mergeEffects hwf).1 hw
  simp [hn]

theorem mergeEffects_len (n : Nat) (output : Memory 16) (effects : List (Memory 16)) :
    (mergeEffects n output effects).len = output.len := Memory.writeAll_len _ _

theorem mergeEffects_wf {n : Nat} {output : Memory 16} (h : output.wf) (effects : List (Memory 16)) :
    (mergeEffects n output effects).wf := Memory.writeAll_wf h _

/-- The elements of one buffer over another: the value listed in `e`, else what `m` has. -/
def overlayRead {w : Nat} (e m : Memory w) (j : Nat) : Element w :=
  match Memory.lookup j e.cells with
  | some v => .value v
  | none => m.read j

theorem overlayRead_unwritten {w : Nat} (len : Nat) (m : Memory w) (j : Nat) :
    overlayRead (Memory.unwritten w len) m j = m.read j := rfl

/-- A range written over a buffer and over what lies on it gives the same elements. -/
theorem overlayRead_writeRange {w : Nat} {e e' m m' : Memory w} {b : Nat} {vs : List (BitVec w)}
    (he : e.writeRange b vs = some e') (hm : m.writeRange b vs = some m') {m₀ : Memory w}
    (h : ∀ j, m.read j = overlayRead e m₀ j) (j : Nat) : m'.read j = overlayRead e' m₀ j := by
  have hlook : ∀ {x : Memory w} {i : Nat} {v : BitVec w}, x.read i = .value v → Memory.lookup i x.cells = some v := by
    intro x i v hx
    unfold Memory.read at hx
    split at hx
    · split at hx
      · cases hx
      · rename_i u hu
        rw [hu]
        simpa using hx
    · cases hx
  by_cases hj : j < b ∨ b + vs.length ≤ j
  · rw [Memory.read_writeRange_outside hm hj, h j]
    have hl : Memory.lookup j e'.cells = Memory.lookup j e.cells := by
      clear h hm hlook
      induction vs generalizing e b with
      | nil => simp only [Memory.writeRange, Option.some.injEq] at he; rw [he]
      | cons v vs ih =>
        simp only [List.length_cons] at hj
        simp only [Memory.writeRange] at he
        split at he
        · cases he
        · rename_i x hw
          obtain ⟨-, rfl⟩ := Memory.write_eq_some.1 hw
          rw [ih he (by omega)]
          exact Memory.lookup_insert_other (by omega) v e.cells
    simp only [overlayRead, hl]
  · obtain ⟨k, rfl⟩ : ∃ k, j = b + k := ⟨j - b, by omega⟩
    have hk : vs[k]? = some (vs[k]'(by omega)) := List.getElem?_eq_getElem (by omega)
    rw [Memory.read_writeRange_inside hm hk]
    simp only [overlayRead, hlook (Memory.read_writeRange_inside he hk)]

/-- Writes over a buffer and over what lies on it give the same elements. -/
theorem overlayRead_writeAll {w : Nat} (cells : List (Nat × BitVec w)) {e m m₀ : Memory w} (hlen : m.len = e.len)
    (h : ∀ j, m.read j = overlayRead e m₀ j) (j : Nat) :
    (m.writeAll cells).read j = overlayRead (e.writeAll cells) m₀ j := by
  induction cells generalizing e m with
  | nil => exact h j
  | cons c cells ih =>
    by_cases hc : c.1 < m.len
    · have hm : m.write c.1 c.2 = some { m with cells := Memory.insert c.1 c.2 m.cells } :=
        Memory.write_eq_some.2 ⟨hc, rfl⟩
      have he : e.write c.1 c.2 = some { e with cells := Memory.insert c.1 c.2 e.cells } :=
        Memory.write_eq_some.2 ⟨hlen ▸ hc, rfl⟩
      simp only [Memory.writeAll, hm, he]
      exact ih hlen fun i => overlayRead_writeRange (b := c.1) (vs := [c.2]) (by simp only [Memory.writeRange, he])
        (by simp only [Memory.writeRange, hm]) h i
    · have hm : m.write c.1 c.2 = none := by simp [Memory.write, hc]
      have he : e.write c.1 c.2 = none := by simp [Memory.write, hlen ▸ hc]
      simp only [Memory.writeAll, hm, he]
      exact ih hlen h

/-- One command on a private output `e` and on the real output `m`, which is `e` over `m₀`: it steps on both or on none,
with the same effect on the caller, and the outputs stay related. A command reads no element of `OUT` (R94). -/
theorem step_private {s t : State} {e m₀ : Memory 16} (hlen : e.len = s.OUT.len)
    (h : ∀ j, s.OUT.read j = overlayRead e m₀ j) (hs : step s = .next t) :
    ∃ e', step { s with OUT := e } = .next { t with OUT := e' } ∧ e'.len = t.OUT.len ∧ (e.wf → e'.wf) ∧
      ∀ j, t.OUT.read j = overlayRead e' m₀ j := by
  obtain ⟨c, hf, hc, hx⟩ := step_eq_next.1 hs
  have hstep : ∀ u, exec (decode c) { s with OUT := e } = .next u → step { s with OUT := e } = .next u :=
    fun u hu => step_eq_next.2 ⟨c, hf, hc, hu⟩
  cases hd : decode c with
  | convertOne x =>
    rw [hd] at hx
    simp only [exec, execConvertOne, Host.Outcome.next.injEq] at hx
    subst hx
    exact ⟨e, hstep _ (by rw [hd]; rfl), hlen, id, h⟩
  | convertMany a b n =>
    rw [hd] at hx
    simp only [exec] at hx
    rcases execConvertMany_cases a b n s with ⟨hb, h'⟩ | ⟨hb, ⟨i, hr, h'⟩ | ⟨ws, o, hr, hw, h'⟩⟩ <;>
      (rw [h'] at hx; simp only [Host.Outcome.next.injEq] at hx; subst hx) <;>
      rcases execConvertMany_cases a b n { s with OUT := e } with ⟨gb, g'⟩ | ⟨gb, ⟨i', gr, g'⟩ | ⟨ws', o', gr, gw, g'⟩⟩ <;>
      simp only [hlen] at gb g' <;> first | exact absurd gb hb | exact absurd hb gb | skip
    · exact ⟨e, hstep _ (by rw [hd]; exact g'), hlen, id, h⟩
    · rw [hr] at gr
      simp only [Elements.unwritten.injEq] at gr
      subst gr
      exact ⟨e, hstep _ (by rw [hd]; exact g'), hlen, id, h⟩
    · rw [hr] at gr; cases gr
    · rw [hr] at gr; cases gr
    · rw [hr] at gr
      simp only [Elements.values.injEq] at gr
      subst gr
      refine ⟨o', hstep _ (by rw [hd]; exact g'), ?_, Memory.writeRange_wf gw, overlayRead_writeRange gw hw h⟩
      have h1 := Memory.writeRange_len gw
      have h2 := Memory.writeRange_len hw
      simp only [State.advance_OUT, State.setOutput_OUT]
      simp only at h1
      omega

/-- The elements a `convertMany` names are those of its output range. -/
theorem System.covers_convertMany {sys : System} {a inOff outOff count : Nat}
    (h : sys.nextCommand a = some (.convertMany inOff outOff count)) (j : Nat) :
    sys.covers a j ↔ writesElement outOff count j := by
  constructor
  · rintro ⟨i, o, n, hn, hj⟩
    rw [h] at hn
    simp only [Option.some.injEq, Instr.convertMany.injEq] at hn
    obtain ⟨rfl, rfl, rfl⟩ := hn
    exact hj
  · exact fun hj => ⟨inOff, outOff, count, h, hj⟩

/-- A `convertOne` names no element. -/
theorem System.covers_convertOne {sys : System} {a : Nat} {bits32 : Bits32}
    (h : sys.nextCommand a = some (.convertOne bits32)) (j : Nat) : ¬ sys.covers a j := by
  rintro ⟨i, o, n, hn, -⟩
  rw [h] at hn
  simp at hn

end Sys2Proof.Machine
end

