-- ==== Sys2Proof/Laws/PerInstr.lean ====
section
/-! SUPPORT. Statements about every instruction as syntax, one lemma per constructor. -/

namespace Sys2Proof.Laws.CanonicalEncoding

/-- The record of an instruction carries only the fields its `op` uses (30_encoding.md R58). -/
def Statement (i : Instr) : Prop := (encode i).ownFieldsOnly = true

theorem convertOne (bits32 : Bits32) : Statement (.convertOne bits32) := by
  simp [Statement, encode, Cmd.ownFieldsOnly]

theorem convertMany (inOff outOff count : Nat) : Statement (.convertMany inOff outOff count) := by
  simp [Statement, encode, Cmd.ownFieldsOnly]

end Sys2Proof.Laws.CanonicalEncoding
end

