-- ==== Sys2Proof/Tests/Slice0.lean ====
section
/-! SUPPORT. Tests whose expected results are the spec's own (95_test_vectors.md), and a witness of the hypotheses of
each statement. -/

namespace Sys2Proof.Tests

open Sys2Proof Sys2Proof.Machine

/-! ### Helpers -/

/-- The cells of a listed buffer, from an index on. -/
def numbered {w : Nat} (i : Nat) : List (Option (BitVec w)) → List (Nat × BitVec w)
  | [] => []
  | none :: es => numbered (i + 1) es
  | some v :: es => (i, v) :: numbered (i + 1) es

/-- A buffer written element by element from index 0, as 95_test_vectors.md lists it. -/
def buffer {w : Nat} (es : List (Option (BitVec w))) : Memory w := { len := es.length, cells := numbered 0 es }

/-- The launch of a list of commands. -/
def launched (is : List Instr) (input : List (Option Bits32)) (output : List (Option Bits16)) : State :=
  State.launch (is.map encode) (buffer input) (buffer output)

/-- The next state, if there is one. -/
def nextState (o : Host.Outcome State Fault Refusal) : Option State :=
  match o with
  | .next t => some t
  | .fault _ => none
  | .refused _ => none

/-- The launch of vector M4. -/
def stateM4 : State :=
  launched [.convertMany 1 2 2] [some 0x3F800000, some 0x40490FDB, some 0xC2F70000]
    [some 0xAAAA, some 0xBBBB, some 0xCCCC, some 0xDDDD]

/-- The end state of vector M4. -/
def endM4 : State := { stateM4 with pc := 1, OUT := buffer [some 0xAAAA, some 0xBBBB, some 0x4248, some 0xD7B8] }

/-- The launch of vector M8: input element 1 is not written. -/
def stateM8 : State :=
  launched [.convertMany 0 0 3] [some 0x3F800000, none, some 0x40000000] [none, none, none]

/-- The end state of vector M8. -/
def endM8 : State := { stateM8 with fault := some (.uninitialisedInput 1) }

/-- The launch of vector M9: both faults apply. -/
def stateM9 : State := launched [.convertMany 0 0 1] [none] []

/-- The end state of vector M9. -/
def endM9 : State := { stateM9 with fault := some (.boundsViolation 0 0 1 1 0) }

/-! ### Well-formed commands -/

theorem test_wellformed_accepts :
    Cmd.ownFieldsOnly { op := 0#1, bits32 := 0x3F800000#32, inOff := 0, outOff := 0, count := 0 } = true ∧
    Cmd.ownFieldsOnly { op := 1#1, bits32 := 0#32, inOff := 1, outOff := 3, count := 2 } = true := by decide

theorem test_wellformed_refuses_in_off :
    Cmd.ownFieldsOnly { op := 0#1, bits32 := 0#32, inOff := 1, outOff := 0, count := 0 } = false := by decide

theorem test_wellformed_refuses_out_off :
    Cmd.ownFieldsOnly { op := 0#1, bits32 := 0#32, inOff := 0, outOff := 1, count := 0 } = false := by decide

theorem test_wellformed_refuses_count :
    Cmd.ownFieldsOnly { op := 0#1, bits32 := 0#32, inOff := 0, outOff := 0, count := 1 } = false := by decide

theorem test_wellformed_refuses_bits32 :
    Cmd.ownFieldsOnly { op := 1#1, bits32 := 1#32, inOff := 0, outOff := 0, count := 1 } = false := by decide

/-! ### Decoding (R58, R59; opcode_table.json: match 0x0 and 0x1, mask 0x1) -/

theorem test_decode_convertOne :
    decode { op := 0#1, bits32 := 0xC0000000#32, inOff := 0, outOff := 0, count := 0 } =
      .convertOne 0xC0000000#32 := by decide

theorem test_decode_convertMany :
    decode { op := 1#1, bits32 := 0#32, inOff := 1, outOff := 3, count := 2 } = .convertMany 1 3 2 := by decide

theorem test_table_word_decodes :
    decodeTableWord 8 0b0 = some (.convertOne 0#32) ∧ decodeTableWord 8 0b1 = some (.convertMany 0 0 0) := by decide

theorem test_table_word_runs_first_after_reset :
    (nextState (step (State.reset.withFetchWord 8 0b0))).map (fun t => (t.pc, t.results)) = some (1, [0x0000#16]) ∧
    (nextState (step (State.reset.withFetchWord 8 0b1))).map (fun t => (t.pc, t.results)) = some (1, []) := by decide

/-! ### The two operations -/

/-- A vector's output is that of the datapath and of its gate-level realisation. -/
def agrees (v : Bits32 × Bits16) : Bool := convert v.1 == v.2 && convertGate v.1 == v.2

/-- Vectors V1 to V24 of 95_test_vectors.md section 2.1. -/
theorem test_convert_vectors_low :
    ([(0x00000000, 0x0000), (0x80000000, 0x8000), (0x00000001, 0x0000),
      (0x807FFFFF, 0x8000), (0x00800000, 0x0000), (0x38000000, 0x0000)] : List (Bits32 × Bits16)).all agrees = true ∧
    ([(0x387FFFFF, 0x0000), (0xB87BA882, 0x8000), (0x38800000, 0x0400),
      (0xB8800000, 0x8400), (0x38FFFFFF, 0x07FF), (0x3F000000, 0x3800)] : List (Bits32 × Bits16)).all agrees = true ∧
    ([(0x3F800000, 0x3C00), (0xBF800000, 0xBC00), (0x3F800001, 0x3C00),
      (0x3F801FFF, 0x3C00), (0x3F802000, 0x3C01), (0x3F801001, 0x3C00)] : List (Bits32 × Bits16)).all agrees = true ∧
    ([(0x3FC00000, 0x3E00), (0x40000000, 0x4000), (0xC0000000, 0xC000),
      (0x3EAAAAAB, 0x3555), (0x3DCCCCCD, 0x2E66), (0x40490FDB, 0x4248)] : List (Bits32 × Bits16)).all agrees = true :=
  ⟨by decide, by decide, by decide, by decide⟩

/-- Vectors V25 to V42. -/
theorem test_convert_vectors_high :
    ([(0xC2F70000, 0xD7B8), (0x47000000, 0x7800), (0x46FFFE00, 0x77FF),
      (0x477FE000, 0x7BFF), (0xC77FE000, 0xFBFF), (0x477FF000, 0x7BFF)] : List (Bits32 × Bits16)).all agrees = true ∧
    ([(0x477FFFFF, 0x7BFF), (0x47800000, 0x7C00), (0x47C35000, 0x7C00),
      (0x7F7FFFFF, 0x7C00), (0xFF7FFFFF, 0xFC00), (0x7F800000, 0x7C00)] : List (Bits32 × Bits16)).all agrees = true ∧
    ([(0xFF800000, 0xFC00), (0x7FC00000, 0x7C00), (0x7F800001, 0x7C00),
      (0xFFC00001, 0xFC00), (0x7FFFFFFF, 0x7C00), (0xFFFFFFFF, 0xFC00)] : List (Bits32 × Bits16)).all agrees = true :=
  ⟨by decide, by decide, by decide⟩

/-- Vector M4: offsets, and elements outside the range keep their values. -/
theorem test_convertMany_writes : nextState (step stateM4) = some endM4 := by decide

/-- Vectors M8 and M9: no partial write, and BoundsViolation comes first. -/
theorem test_convertMany_faults :
    nextState (step stateM8) = some endM8 ∧ nextState (step stateM9) = some endM9 := by decide

/-! ### The embedding and the assembler -/

/-- The bytes of `IN[1] = 0x3F802000` at base 16, in both orders. -/
theorem test_byte_layout :
    (buffer [none, some (0x3F802000#32)]).byteCells .little 16 =
      [(20, 0x00#8), (21, 0x20#8), (22, 0x80#8), (23, 0x3F#8)] ∧
    (buffer [none, some (0x3F802000#32)]).byteCells .big 16 =
      [(20, 0x3F#8), (21, 0x80#8), (22, 0x20#8), (23, 0x00#8)] := by decide

/-- `convertMany(0x1F, 2,3) # c`. -/
theorem test_assembler_reads :
    parseLine (convertManyWord ++ ['(', '0', 'x', '1', 'F', ',', ' ', '2', ',', '3', ')', ' ', '#', ' ', 'c']) =
      .command (.convertMany 31 2 3) := by decide

/-- `convertOne(4294967296)` has no 32-bit literal. -/
theorem test_assembler_refuses_wide_literal :
    parseLine (convertOneWord ++ ['(', '4', '2', '9', '4', '9', '6', '7', '2', '9', '6', ')']) = .malformed := by decide

/-! ### Witnesses: the hypotheses of each statement are met -/

theorem witness_CommandDecodeIsTotal :
    (encode (.convertOne 5#32)).op = 0#1 ∧ (encode (.convertMany 1 2 2)).op = 1#1 ∧
    stateM4.fault = none ∧ stateM4.prog[stateM4.pc]? = some (encode (.convertMany 1 2 2)) := by decide

theorem witness_EncodeOfDecodedCommand : (encode (.convertMany 1 2 2)).ownFieldsOnly = true := by decide

theorem witness_StepRunsDecodedCommand :
    stateM8.fault = none ∧ stateM8.prog[stateM8.pc]? = some (encode (.convertMany 0 0 3)) := by decide

theorem witness_AssemblerReadsPrintedCommand :
    (∀ c ∈ [' ', '\t'], isBlank c = true) ∧ ∀ c ∈ ['\r'], isBlank c = true := by
  simp [isBlank]

theorem witness_LowMantissaBitsDiscarded :
    (0x3F801FFF#32).extractLsb' 13 19 = (0x3F800000#32).extractLsb' 13 19 ∧ 0x3F801FFF#32 ≠ 0x3F800000#32 := by decide

theorem witness_LowExponentGivesSignedZero :
    adjustedExponent 0x387FFFFF#32 ≤ 0 ∧ adjustedExponent 0x80000000#32 ≤ 0 := by decide

theorem witness_HighExponentGivesSignedInfinity :
    adjustedExponent 0x47800000#32 ≥ 31 ∧ adjustedExponent 0xFFFFFFFF#32 ≥ 31 := by decide

theorem witness_NormalExponentIsRebiased :
    (1 ≤ adjustedExponent 0x38800000#32 ∧ adjustedExponent 0x38800000#32 ≤ 30) ∧
    (1 ≤ adjustedExponent 0x477FFFFF#32 ∧ adjustedExponent 0x477FFFFF#32 ≤ 30) := by decide

theorem witness_SubnormalsCollapseToSignedZero :
    (rawExponent 0x807FFFFF#32 = 0 ∧ fp32Mantissa 0x807FFFFF#32 ≠ 0#23) ∧
    (1 ≤ rawExponent 0x387FFFFF#32 ∧ rawExponent 0x387FFFFF#32 ≤ 112) := by decide

theorem witness_NansCollapseToSignedInfinity :
    (rawExponent 0x7F800001#32 = 255 ∧ fp32Mantissa 0x7F800001#32 ≠ 0#23 ∧ fp32Sign 0x7F800001#32 = 0#1) ∧
    (rawExponent 0xFFFFFFFF#32 = 255 ∧ fp32Mantissa 0xFFFFFFFF#32 ≠ 0#23 ∧ fp32Sign 0xFFFFFFFF#32 = 1#1) := by decide

theorem witness_OverflowSaturatesToSignedInfinity :
    (143 ≤ rawExponent 0x47800000#32 ∧ rawExponent 0x47800000#32 ≤ 254) ∧
    (143 ≤ rawExponent 0xFF7FFFFF#32 ∧ rawExponent 0xFF7FFFFF#32 ≤ 254) := by decide

theorem witness_MonotoneInMagnitude :
    fp32Sign 0x477FFFFF#32 = fp32Sign 0x47800000#32 ∧
    (fp32Magnitude 0x477FFFFF#32).toNat ≤ (fp32Magnitude 0x47800000#32).toNat := by decide

theorem witness_NormalValueIsTruncated : classOf 0x3F801001#32 = .normal := by decide

/-- The first lower bound of the decimal range, and a class by value on each side of a boundary. -/
theorem witness_ClassesByMagnitudeOfValue :
    rawExponent 0x477FE000#32 ≤ 254 ∧ 65504 ≤ fp32Value 0x477FE000#32 ∧ fp32Value 0x477FE000#32 < 65536 := by
  have e : rawExponent 0x477FE000#32 = 142 := by decide
  have m : (fp32Mantissa 0x477FE000#32).toNat = 8380416 := by decide
  have s : ¬ fp32Sign 0x477FE000#32 = 1#1 := by decide
  refine ⟨by rw [e]; decide, ?_, ?_⟩ <;>
    · simp only [fp32Value, e, m, signFactor, s, if_false]
      norm_num

theorem witness_NormalOutputIsNearestBelow :
    classOf 0x3F801001#32 = .normal ∧ 1 ≤ (fp16Exponent 0x3C00#16).toNat ∧ (fp16Exponent 0x3C00#16).toNat ≤ 30 ∧
    |fp16Value 0x3C00#16| ≤ |fp32Value 0x3F801001#32| := by
  have e : rawExponent 0x3F801001#32 = 127 := by decide
  have m : (fp32Mantissa 0x3F801001#32).toNat = 4097 := by decide
  have s : ¬ fp32Sign 0x3F801001#32 = 1#1 := by decide
  have e' : (fp16Exponent 0x3C00#16).toNat = 15 := by decide
  have m' : (fp16Mantissa 0x3C00#16).toNat = 0 := by decide
  have s' : ¬ fp16Sign 0x3C00#16 = 1#1 := by decide
  refine ⟨by decide, by rw [e']; decide, by rw [e']; decide, ?_⟩
  simp only [fp16Value, fp32Value, e, m, e', m', signFactor, s, s', if_false]
  norm_num

theorem witness_ConvertOneAppendsResult : (encode (.convertOne 0x3F800000#32)).op = 0#1 := by decide

/-- Every element of `IN` from 1 to 2 holds a value in M4. -/
theorem inputWritten_M4 : inputWritten 1 2 stateM4 := by
  intro k hk
  interval_cases k
  · exact ⟨0x40490FDB#32, rfl⟩
  · exact ⟨0xC2F70000#32, rfl⟩

/-- The precondition of M4, its first and last lane, an element on each side of the range, and the empty command. -/
theorem witness_ConvertManyWritesConversions :
    fits 1 2 2 stateM4 ∧ inputWritten 1 2 stateM4 ∧ (0 < 2 ∧ 1 < 2) ∧
    ¬ writesElement 2 2 1 ∧ ¬ writesElement 2 2 4 ∧
    fits 9 9 0 stateM4 ∧ inputWritten 9 0 stateM4 :=
  ⟨by decide, inputWritten_M4, by decide, by decide, by decide, by decide, fun k hk => absurd hk (by omega)⟩

/-- M4 completes. -/
theorem exec_M4 : exec (.convertMany 1 2 2) stateM4 = .next endM4 := rfl

/-- M8 takes UninitialisedInput. -/
theorem exec_M8 : exec (.convertMany 0 0 3) stateM8 = .next endM8 := rfl

/-- M9 takes BoundsViolation. -/
theorem exec_M9 : exec (.convertMany 0 0 1) stateM9 = .next endM9 := rfl

theorem witness_BoundsViolationIsTaken :
    ¬ fits 0 0 1 stateM9 ∧ ¬ fits 2 2 2 stateM4 ∧
    (stateM4.fault = none ∧ exec (.convertMany 1 2 2) stateM4 = .next endM4 ∧ endM4.fault = none) ∧
    fits 5 7 0 stateM4 :=
  ⟨by decide, by decide, ⟨rfl, exec_M4, rfl⟩, by decide⟩

theorem witness_UninitialisedInputIsTaken :
    fits 0 0 3 stateM8 ∧ 1 < 3 ∧ stateM8.IN.read (0 + 1) = .unwritten ∧
    ∀ l, l < 1 → ∃ v, stateM8.IN.read (0 + l) = .value v := by
  refine ⟨by decide, by decide, rfl, fun l hl => ?_⟩
  interval_cases l
  exact ⟨0x3F800000#32, rfl⟩

theorem witness_FaultCausesAndPriority :
    (stateM8.fault = none ∧ exec (.convertMany 0 0 3) stateM8 = .next endM8 ∧
      endM8.fault = some (.uninitialisedInput 1)) ∧
    (stateM9.fault = none ∧ exec (.convertMany 0 0 1) stateM9 = .next endM9 ∧
      endM9.fault = some (.boundsViolation 0 0 1 1 0)) ∧
    (endM9.fault = some (.boundsViolation 0 0 1 1 0) ∧ runSteps 0 endM9 = .next endM9) :=
  ⟨⟨rfl, exec_M8, rfl⟩, ⟨rfl, exec_M9, rfl⟩, rfl, rfl⟩

theorem witness_FaultingCommandChangesOnlyFault :
    stateM8.fault = none ∧ exec (.convertMany 0 0 3) stateM8 = .next endM8 ∧ endM8.fault ≠ none :=
  ⟨rfl, exec_M8, by decide⟩

theorem witness_FaultedStateIsStuck :
    endM8.fault ≠ none ∧ (step stateM8 = .next endM8 ∧ endM8.fault ≠ none) ∧ runSteps 0 endM8 = .next endM8 :=
  ⟨by decide, ⟨rfl, by decide⟩, rfl⟩

theorem witness_CompletedCommandAdvancesByOne :
    (step stateM4 = .next endM4 ∧ endM4.fault = none) ∧ (step stateM8 = .next endM8 ∧ endM8.fault ≠ none) :=
  ⟨⟨rfl, rfl⟩, rfl, by decide⟩

theorem witness_ConfigurationAndInputNeverChange : runSteps 1 stateM4 = .next endM4 := rfl

theorem witness_OnlyConvertOneWritesResults :
    (exec (.convertOne 0x3F800000#32) stateM4 = .next { stateM4 with pc := 1, results := [0x3C00#16] }) ∧
    exec (.convertMany 1 2 2) stateM4 = .next endM4 :=
  ⟨rfl, exec_M4⟩

/-- Two output buffers of one length with different old values. -/
theorem witness_OldOutputNeverInfluences :
    stateM4.fault = none ∧ (buffer [none, none, none, some 0x1234#16]).len = stateM4.OUT.len ∧
    exec (.convertMany 1 2 2) stateM4 = .next endM4 ∧
    exec (.convertMany 1 2 2) { stateM4 with OUT := buffer [none, none, none, some 0x1234#16] } =
      .next { stateM4 with pc := 1, OUT := buffer [none, none, some 0x4248#16, some 0xD7B8#16] } ∧
    endM4.fault = none ∧ writesElement 2 2 2 ∧ writesElement 2 2 3 :=
  ⟨rfl, rfl, exec_M4, rfl, rfl, by decide, by decide⟩

/-- Two states that agree on one input element only. -/
theorem witness_LanesAreIndependent :
    stateM4.fault = none ∧ 1 < 2 ∧
    { stateM4 with IN := buffer [none, some 0#32, some 0xC2F70000#32] }.IN.read (1 + 1) = stateM4.IN.read (1 + 1) ∧
    exec (.convertMany 1 2 2) stateM4 = .next endM4 ∧ endM4.fault = none ∧
    exec (.convertMany 1 2 2) { stateM4 with IN := buffer [none, some 0#32, some 0xC2F70000#32] } =
      .next { stateM4 with
        pc := 1, IN := buffer [none, some 0#32, some 0xC2F70000#32],
        OUT := buffer [some 0xAAAA#16, some 0xBBBB#16, some 0#16, some 0xD7B8#16] } :=
  ⟨rfl, by decide, rfl, exec_M4, rfl, rfl⟩

theorem witness_RepeatedConvertManyWritesSame :
    stateM4.OUT.wf ∧ stateM4.fault = none ∧ exec (.convertMany 1 2 2) stateM4 = .next endM4 ∧ endM4.fault = none :=
  ⟨by decide, rfl, exec_M4, rfl⟩

theorem witness_BulkEqualsScalarRun :
    stateM4.fault = none ∧ exec (.convertMany 1 2 2) stateM4 = .next endM4 ∧ endM4.fault = none ∧
    [0x40490FDB#32, 0xC2F70000#32].length = 2 ∧
    ∀ k w, [0x40490FDB#32, 0xC2F70000#32][k]? = some w → stateM4.IN.read (1 + k) = .value w := by
  refine ⟨rfl, exec_M4, rfl, rfl, fun k w h => ?_⟩
  match k, h with
  | 0, h => simp only [List.getElem?_cons_zero, Option.some.injEq] at h; subst h; rfl
  | 1, h => simp only [List.getElem?_cons_succ, List.getElem?_cons_zero, Option.some.injEq] at h; subst h; rfl

theorem witness_LaunchMeetsInvariant : stateM8.IN.wf ∧ stateM8.OUT.wf := by decide

/-- A launch meets the invariant, and a step completes and another faults from one. -/
theorem witness_StepKeepsInvariant :
    (Inv stateM4 ∧ step stateM4 = .next endM4) ∧ (Inv stateM8 ∧ step stateM8 = .next endM8) :=
  ⟨⟨⟨by decide, by decide, by decide, fun _ h => by cases h⟩, rfl⟩,
   ⟨⟨by decide, by decide, by decide, fun _ h => by cases h⟩, rfl⟩⟩

theorem witness_EveryRunEnds :
    (stateM4.fault = none ∧ stateM4.pc ≤ stateM4.prog.length) ∧ (endM4.fault = none ∧ endM4.pc ≤ endM4.prog.length) :=
  ⟨⟨rfl, by decide⟩, rfl, by decide⟩

/-- Both sides of the equivalence, on M4. -/
theorem witness_CallerDutiesDecideCompletion :
    stateM4.fault = none ∧ 0 < 2 ∧ CallerDuties 1 2 2 stateM4 ∧
    exec (.convertMany 1 2 2) stateM4 = .next endM4 ∧ endM4.fault = none :=
  ⟨rfl, by decide, ⟨by decide, inputWritten_M4, by decide⟩, exec_M4, rfl⟩

/-- A caller at the start of a list of commands. -/
def callerOf (is : List Instr) : Caller := { pc := 0, results := [], fault := none, prog := is.map encode }

/-- Four callers over the buffers of M4: one writes elements 2 and 3, one elements 0 and 1, one converts one word, and
one faults. -/
def disjointSystem : System :=
  { callers := [callerOf [.convertMany 1 2 2], callerOf [.convertMany 0 0 2], callerOf [.convertOne 0x3F800000#32],
      callerOf [.convertMany 0 0 9]]
    IN := stateM4.IN
    OUT := stateM4.OUT }

/-- Three callers over the buffers of M4: two write element 2, each of them writes one more alone, and one converts one
word. -/
def overlappingSystem : System :=
  { callers := [callerOf [.convertMany 1 2 2], callerOf [.convertMany 0 1 2], callerOf [.convertOne 0x3F800000#32]]
    IN := stateM4.IN
    OUT := stateM4.OUT }

/-- The callers of `disjointSystem` write the ranges that meet at element 2, and the last two write nothing. -/
theorem disjointSystem_writesAt (j : Nat) :
    (disjointSystem.writesAt 0 j → 2 ≤ j) ∧ (disjointSystem.writesAt 1 j → j < 2) ∧
    ¬ disjointSystem.writesAt 2 j ∧ ¬ disjointSystem.writesAt 3 j := by
  refine ⟨fun h => ?_, fun h => ?_, fun h => ?_, fun h => ?_⟩
  · exact ((System.covers_convertMany (inOff := 1) (outOff := 2) (count := 2) rfl j).1 h.1).1
  · have := ((System.covers_convertMany (inOff := 0) (outOff := 0) (count := 2) rfl j).1 h.1).2
    omega
  · exact System.covers_convertOne (bits32 := 0x3F800000#32) rfl j h.1
  · obtain ⟨-, c, hc, hf⟩ := h
    rw [show (disjointSystem.stepCaller 3).callers[3]? =
      some { callerOf [.convertMany 0 0 9] with fault := some (.boundsViolation 0 0 9 3 4) } from rfl] at hc
    simp only [Option.some.injEq] at hc
    subst hc
    cases hf

/-- Callers that complete and one that faults, in another order; and a `convertOne` beside them. -/
theorem witness_DisjointInvocationsCommute :
    disjointSystem.OUT.wf ∧ [0, 1, 2, 3].Nodup ∧
    (∀ a ∈ [0, 1, 2, 3], ∀ b ∈ [0, 1, 2, 3], a ≠ b →
      ∀ j, ¬ (disjointSystem.writesAt a j ∧ disjointSystem.writesAt b j)) ∧
    [3, 1, 0, 2].Perm [0, 1, 2, 3] ∧
    disjointSystem.nextCommand 2 = some (.convertOne 0x3F800000#32) ∧ 2 ≠ 3 := by
  refine ⟨by decide, by decide, fun a ha b hb hab j => ?_, by decide, rfl, by decide⟩
  obtain ⟨h0, h1, h2, h3⟩ := disjointSystem_writesAt j
  simp only [List.mem_cons, List.not_mem_nil, or_false] at ha hb
  rcases ha with rfl | rfl | rfl | rfl <;> rcases hb with rfl | rfl | rfl | rfl <;> rintro ⟨hx, hy⟩ <;>
    first
    | exact hab rfl
    | exact h2 hx
    | exact h2 hy
    | exact h3 hx
    | exact h3 hy
    | exact Nat.lt_irrefl j (Nat.lt_of_lt_of_le (h1 hy) (h0 hx))
    | exact Nat.lt_irrefl j (Nat.lt_of_lt_of_le (h1 hx) (h0 hy))

/-- Element 2 has two writers, element 3 one caller and another agent, element 1 one writer, element 0 none. -/
theorem witness_OverlappedElementIsDrawn :
    (overlappingSystem.writesAt 0 2 ∧ overlappingSystem.writesAt 1 2) ∧
    (overlappingSystem.writesAt 0 3 ∧ ∃ v, (3, v) ∈ [(3, 0x1234#16)]) ∧
    (overlappingSystem.writesAt 1 1 ∧ (∀ b ∈ [0, 1, 2], b ≠ 1 → ¬ overlappingSystem.writesAt b 1) ∧
      ¬ ∃ v, (1, v) ∈ [(3, 0x1234#16)]) ∧
    ∀ a ∈ [0, 1, 2], ¬ overlappingSystem.writesAt a 0 := by
  have c0 : ∀ j, overlappingSystem.covers 0 j ↔ writesElement 2 2 j :=
    System.covers_convertMany (inOff := 1) rfl
  have c1 : ∀ j, overlappingSystem.covers 1 j ↔ writesElement 1 2 j :=
    System.covers_convertMany (inOff := 0) rfl
  have c2 : ∀ j, ¬ overlappingSystem.covers 2 j := System.covers_convertOne (bits32 := 0x3F800000#32) rfl
  have f0 : ∃ c, (overlappingSystem.stepCaller 0).callers[0]? = some c ∧ c.fault = none := ⟨_, rfl, rfl⟩
  have f1 : ∃ c, (overlappingSystem.stepCaller 1).callers[1]? = some c ∧ c.fault = none := ⟨_, rfl, rfl⟩
  refine ⟨⟨⟨(c0 2).2 (by decide), f0⟩, (c1 2).2 (by decide), f1⟩,
    ⟨⟨(c0 3).2 (by decide), f0⟩, 0x1234#16, by simp⟩,
    ⟨⟨(c1 1).2 (by decide), f1⟩, fun b hb hb1 h => ?_, by simp⟩, fun a ha h => ?_⟩
  · simp only [List.mem_cons, List.not_mem_nil, or_false] at hb
    rcases hb with rfl | rfl | rfl
    · exact absurd ((c0 1).1 h.1) (by decide)
    · exact hb1 rfl
    · exact c2 1 h.1
  · simp only [List.mem_cons, List.not_mem_nil, or_false] at ha
    rcases ha with rfl | rfl | rfl
    · exact absurd ((c0 0).1 h.1) (by decide)
    · exact absurd ((c1 0).1 h.1) (by decide)
    · exact c2 0 h.1

/-- The caller of M8 and one that converts one word. -/
def racedSystem : System :=
  { callers := [callerOf [.convertMany 0 0 3], callerOf [.convertOne 0x3F800000#32]]
    IN := stateM8.IN
    OUT := stateM8.OUT }

/-- Another agent writes the unwritten element: lane 1 is raced, lanes 0 and 2 are not. -/
theorem witness_RacedInputIsDrawn :
    0 ∈ [0, 1] ∧ racedSystem.callers[0]? = some (callerOf [.convertMany 0 0 3]) ∧
    racedSystem.nextCommand 0 = some (.convertMany 0 0 3) ∧
    fits 0 0 3 ((callerOf [.convertMany 0 0 3]).view racedSystem.IN racedSystem.OUT) ∧
    (∀ k, k < 3 → (∃ v, (0 + k, v) ∈ [(1, 0x40490FDB#32)]) ∨ ∃ v, racedSystem.IN.read (0 + k) = .value v) ∧
    (∀ k, k < 3 → ∀ b ∈ [0, 1], b ≠ 0 → ¬ racedSystem.covers b (0 + k)) ∧
    (∃ v, (0 + 1, v) ∈ [(1, 0x40490FDB#32)]) ∧ ¬ ∃ v, (0 + 2, v) ∈ [(1, 0x40490FDB#32)] := by
  refine ⟨by decide, rfl, rfl, by decide, fun k hk => ?_, fun k _ b hb hb0 => ?_, ⟨0x40490FDB#32, by simp⟩, by simp⟩
  · interval_cases k
    · exact Or.inr ⟨0x3F800000#32, rfl⟩
    · exact Or.inl ⟨0x40490FDB#32, by simp⟩
    · exact Or.inr ⟨0x40000000#32, rfl⟩
  · simp only [List.mem_cons, List.not_mem_nil, or_false] at hb
    rcases hb with rfl | rfl
    · exact absurd rfl hb0
    · exact System.covers_convertOne (bits32 := 0x3F800000#32) rfl _

theorem witness_OneCallerEpisodeIsRun : stateM4.OUT.wf ∧ runSteps 1 stateM4 = .next endM4 := ⟨by decide, rfl⟩

theorem witness_ElementBytesDetermineElement :
    elementBytes .little 0x3F802000#32 = elementBytes .little 0x3F802000#32 ∧
    elementBytes .big 0x3C00#16 = [0x3C#8, 0x00#8] := by decide

/-- The state of `RunBeginsAtCommandZeroAndEnds`'s second part: the end of M4 is final. -/
theorem witness_RunBeginsAtCommandZeroAndEnds : step endM4 = .fault .runComplete ∧ endM4.final :=
  ⟨rfl, rfl, rfl⟩

end Sys2Proof.Tests
end

/-! ### Runs keep the configuration and `IN` (10_state.md R29) -/

namespace Sys2Proof.Machine

theorem exec_convertOne (bits32 : Bits32) (s : State) :
    exec (.convertOne bits32) s = .next (s.appendResult (convert bits32)).advance := rfl

theorem exec_convertMany (inOff outOff count : Nat) (s : State) :
    exec (.convertMany inOff outOff count) s = execConvertMany inOff outOff count s := rfl

/-- A run of `n + 1` steps that answers a state is a step that answers one and a run of `n` steps from there. -/
theorem runSteps_succ_eq_next {n : Nat} {s u : State} :
    runSteps (n + 1) s = .next u ↔ ∃ t, step s = .next t ∧ runSteps n t = .next u := by
  rw [runSteps_succ]
  cases step s <;> simp

/-- The induction over a run, once: a preorder that holds over every step holds over every run. -/
theorem rel_of_runSteps {R : State → State → Prop} (refl : ∀ s, R s s)
    (trans : ∀ {s t u}, R s t → R t u → R s u) (hstep : ∀ {s t}, step s = .next t → R s t)
    {n : Nat} {s t : State} (h : runSteps n s = .next t) : R s t := by
  induction n generalizing s with
  | zero =>
    cases h
    exact refl _
  | succ n ih =>
    obtain ⟨u, hfirst, hrest⟩ := runSteps_succ_eq_next.1 h
    exact trans (hstep hfirst) (ih hrest)

/-- `t` has the configuration of `s` (R29) and its input buffer (R31). `IN_LEN` is a part of `IN`. -/
structure SameConfiguration (s t : State) : Prop where
  prog   : t.prog = s.prog
  input  : t.IN = s.IN
  outLen : t.OUT.len = s.OUT.len

theorem SameConfiguration.refl (s : State) : SameConfiguration s s := ⟨rfl, rfl, rfl⟩

theorem SameConfiguration.trans {s t u : State} (hst : SameConfiguration s t) (htu : SameConfiguration t u) :
    SameConfiguration s u :=
  ⟨htu.prog.trans hst.prog, htu.input.trans hst.input, htu.outLen.trans hst.outLen⟩

/-- Every command keeps the configuration. Only a completed `convertMany` touches `OUT`, and its writes keep the
length. -/
theorem exec_sameConfiguration {i : Instr} {s t : State} (h : exec i s = .next t) : SameConfiguration s t := by
  cases i with
  | convertOne bits32 =>
    rw [exec_convertOne] at h
    cases h
    exact ⟨rfl, rfl, rfl⟩
  | convertMany inOff outOff count =>
    rw [exec_convertMany] at h
    obtain ⟨-, hexec⟩ | ⟨-, ⟨_, -, hexec⟩ | ⟨ws, output, -, hwrite, hexec⟩⟩ :=
      execConvertMany_cases inOff outOff count s
    · cases hexec.symm.trans h
      exact ⟨rfl, rfl, rfl⟩
    · cases hexec.symm.trans h
      exact ⟨rfl, rfl, rfl⟩
    · cases hexec.symm.trans h
      exact ⟨rfl, rfl, Memory.writeRange_len hwrite⟩

theorem step_sameConfiguration {s t : State} (h : step s = .next t) : SameConfiguration s t := by
  obtain ⟨_, -, -, hexec⟩ := step_eq_next.1 h
  exact exec_sameConfiguration hexec

theorem runSteps_sameConfiguration {n : Nat} {s t : State} (h : runSteps n s = .next t) :
    SameConfiguration s t :=
  rel_of_runSteps .refl .trans step_sameConfiguration h

/-- Settles O40: every step keeps the configuration and `IN`, so every run does. -/
theorem configurationAndInputNeverChange : Obligations.ConfigurationAndInputNeverChange := by
  intro n s t h
  obtain ⟨hprog, hinput, houtLen⟩ := runSteps_sameConfiguration h
  exact ⟨hprog, congrArg Memory.len hinput, houtLen, hinput⟩

end Sys2Proof.Machine

/-! ### The command record decodes to its operation (30_encoding.md R59) -/

namespace Sys2Proof.Machine

theorem decode_of_op_zero {c : Cmd} (h : c.op = 0#1) : decode c = .convertOne c.bits32 :=
  if_pos h

theorem decode_of_op_one {c : Cmd} (h : c.op = 1#1) : decode c = .convertMany c.inOff c.outOff c.count :=
  if_neg (by simp [h])

/-- Settles O1: a 1-bit `op` is 0 or 1, and `decode` tests it; `fetch` answers the record at `pc`. -/
theorem commandDecodeIsTotal : Obligations.CommandDecodeIsTotal := fun c =>
  ⟨BitVec.eq_zero_or_eq_one c.op, decode_of_op_zero, decode_of_op_one,
    fun _ hfault hprog => fetch_eq_next.2 ⟨hfault, hprog⟩⟩

end Sys2Proof.Machine

/-! ### The result word is assembled from its fields (30_encoding.md R53) -/

namespace Sys2Proof.Machine

/-- The three shifted fields do not overlap, so `|` is concatenation: each bit of the result is a bit of one field, and
the other two are 0 there. -/
theorem assembleResult_eq_append (s : BitVec 1) (e : BitVec 5) (m : BitVec 10) :
    assembleResult s e m = s ++ e ++ m := by
  refine BitVec.eq_of_getLsbD_eq fun i hi => ?_
  simp only [assembleResult, BitVec.getLsbD_or, BitVec.getLsbD_shiftLeft, BitVec.getLsbD_setWidth,
    BitVec.getLsbD_append]
  obtain hmant | ⟨hlo, hhi⟩ | rfl : i < 10 ∨ (10 ≤ i ∧ i < 15) ∨ i = 15 := by omega
  · have : i < 15 := by omega
    simp [hi, hmant, this]
  · have hexp : i - 10 < 5 := by omega
    have : i - 10 < 16 := by omega
    simp [hi, hlo, hhi, hexp, this]
  · simp

theorem getElem_sign16 : ∀ i (h : i < 16), sign16[i] = decide (i = 15) := by decide

theorem getElem_mantissaMask : ∀ i (h : i < 16), (0x3FF#16)[i] = decide (i < 10) := by decide

/-- Step 1 (R66) moves `x[31]` to bit 15: the mask `0x8000` clears every other bit. -/
theorem signField_eq (x : Bits32) : signField x = (fp32Sign x).setWidth 16 <<< 15 := by
  ext i hi
  obtain hlow | rfl : i < 15 ∨ i = 15 := by omega
  · simp [signField, fp32Sign, getElem_sign16, hlow, hlow.ne]
  · simp [signField, fp32Sign, getElem_sign16]

/-- Step 3 (R68) is the field `x[22:13]`: the mask `0x3FF` keeps the low 10 bits. -/
theorem mantissaField_eq (x : Bits32) : mantissaField x = (x.extractLsb' 13 10).setWidth 16 := by
  ext i hi
  simp [mantissaField, shiftM, getElem_mantissaMask, Bool.and_comm]

/-- `Convert` in the zero class (R69) assembles zero fields under the sign. -/
theorem convert_eq_assembleResult_of_zero {x : Bits32} (h : classOf x = .zero) :
    convert x = assembleResult (fp32Sign x) 0#5 0#10 := by
  simp [convert_of_zero h, assembleResult, signField_eq]

theorem convert_eq_assembleResult_of_clip {x : Bits32} (h : classOf x = .clip) :
    convert x = assembleResult (fp32Sign x) 31#5 0#10 := by
  simp [convert_of_clip h, assembleResult, signField_eq, inf16]

theorem convert_eq_assembleResult_of_normal {x : Bits32} (h : classOf x = .normal) :
    convert x =
      assembleResult (fp32Sign x) (BitVec.ofInt 5 (adjustedExponent x)) (x.extractLsb' 13 10) := by
  rw [convert_of_normal h, signField_eq, mantissaField_eq]
  rfl

/-- Settles O15: the assembly is a concatenation of disjoint fields, and each class of `convert` assembles its own
exponent and mantissa under the sign of `x`. -/
theorem resultIsConcatenation : Obligations.ResultIsConcatenation := by
  refine ⟨fun s e m => ⟨rfl, assembleResult_eq_append s e m⟩, fun x => ?_⟩
  cases h : classOf x with
  | zero => exact convert_eq_assembleResult_of_zero h
  | clip => exact convert_eq_assembleResult_of_clip h
  | normal => exact convert_eq_assembleResult_of_normal h

end Sys2Proof.Machine

/-! ### The fields of an assembled result and the words of the clipped classes (30_encoding.md R50, R53) -/

namespace Sys2Proof.Machine

@[simp] theorem fp16Sign_assembleResult (s : BitVec 1) (e : BitVec 5) (m : BitVec 10) :
    fp16Sign (assembleResult s e m) = s := by
  rw [assembleResult_eq_append, fp16Sign, BitVec.extractLsb'_append_eq_of_le (by decide)]
  exact BitVec.extractLsb'_append_eq_left

@[simp] theorem fp16Exponent_assembleResult (s : BitVec 1) (e : BitVec 5) (m : BitVec 10) :
    fp16Exponent (assembleResult s e m) = e := by
  rw [assembleResult_eq_append, fp16Exponent, BitVec.extractLsb'_append_eq_of_le (by decide)]
  exact BitVec.extractLsb'_append_eq_right

@[simp] theorem fp16Mantissa_assembleResult (s : BitVec 1) (e : BitVec 5) (m : BitVec 10) :
    fp16Mantissa (assembleResult s e m) = m := by
  rw [assembleResult_eq_append]
  exact BitVec.extractLsb'_append_eq_right

/-- Every result keeps the sign of its input; the class decides the other two fields only. -/
theorem convert_eq_assembleResult (x : Bits32) :
    ∃ e m, convert x = assembleResult (fp32Sign x) e m := by
  cases h : classOf x with
  | zero => exact ⟨_, _, convert_eq_assembleResult_of_zero h⟩
  | clip => exact ⟨_, _, convert_eq_assembleResult_of_clip h⟩
  | normal => exact ⟨_, _, convert_eq_assembleResult_of_normal h⟩

theorem fp16Sign_convert (x : Bits32) : fp16Sign (convert x) = fp32Sign x := by
  obtain ⟨e, m, h⟩ := convert_eq_assembleResult x
  rw [h, fp16Sign_assembleResult]

/-- The mask `0x8000` keeps bit 15 of a 16-bit word. -/
theorem and_sign16_eq (y : Bits16) : y &&& sign16 = (fp16Sign y).setWidth 16 <<< 15 := by
  ext i hi
  obtain hlow | rfl : i < 15 ∨ i = 15 := by omega
  · simp [getElem_sign16, hlow, hlow.ne]
  · simp [fp16Sign, getElem_sign16]

theorem convert_and_sign16 (x : Bits32) : convert x &&& sign16 = signField x := by
  rw [and_sign16_eq, fp16Sign_convert, signField_eq]

/-- The word of the zero class (R69). -/
theorem assembleResult_zero (s : BitVec 1) :
    assembleResult s 0#5 0#10 = if s = 1#1 then 0x8000#16 else 0x0000#16 := by
  obtain rfl | rfl := BitVec.eq_zero_or_eq_one s <;> rfl

/-- The word of the clip class (R70). -/
theorem assembleResult_infinity (s : BitVec 1) :
    assembleResult s 31#5 0#10 = if s = 1#1 then 0xFC00#16 else 0x7C00#16 := by
  obtain rfl | rfl := BitVec.eq_zero_or_eq_one s <;> rfl

theorem convert_eq_signedZero {x : Bits32} (h : rawExponent x ≤ 112) :
    convert x = if fp32Sign x = 1#1 then 0x8000#16 else 0x0000#16 := by
  rw [convert_eq_assembleResult_of_zero (classOf_eq_zero.2 h), assembleResult_zero]

theorem convert_eq_signedInfinity {x : Bits32} (h : 143 ≤ rawExponent x) :
    convert x = if fp32Sign x = 1#1 then 0xFC00#16 else 0x7C00#16 := by
  rw [convert_eq_assembleResult_of_clip (classOf_eq_clip.2 h), assembleResult_infinity]

end Sys2Proof.Machine

/-! ### The classes by adjusted exponent (40_convert_one.md R67, R69 to R71) -/

namespace Sys2Proof.Machine

theorem adjustedExponent_le_clipLo {x : Bits32} : adjustedExponent x ≤ 0 ↔ rawExponent x ≤ 112 := by
  rw [adjustedExponent_eq]
  omega

theorem adjustedExponent_ge_clipHi {x : Bits32} : adjustedExponent x ≥ 31 ↔ rawExponent x ≥ 143 := by
  rw [adjustedExponent_eq]
  omega

theorem adjustedExponent_normal {x : Bits32} :
    1 ≤ adjustedExponent x ∧ adjustedExponent x ≤ 30 ↔ 113 ≤ rawExponent x ∧ rawExponent x ≤ 142 := by
  rw [adjustedExponent_eq]
  omega

theorem fp16Mantissa_convert_of_zero {x : Bits32} (h : classOf x = .zero) : fp16Mantissa (convert x) = 0#10 := by
  rw [convert_eq_assembleResult_of_zero h, fp16Mantissa_assembleResult]

theorem fp16Mantissa_convert_of_clip {x : Bits32} (h : classOf x = .clip) : fp16Mantissa (convert x) = 0#10 := by
  rw [convert_eq_assembleResult_of_clip h, fp16Mantissa_assembleResult]

/-- Five bits hold the adjusted exponent of the normal class (R71). -/
theorem toNat_fp16Exponent_of_normal {x : Bits32} (h : classOf x = .normal) :
    ((fp16Exponent (convert x)).toNat : Int) = adjustedExponent x := by
  rw [convert_eq_assembleResult_of_normal h, fp16Exponent_assembleResult, BitVec.toNat_ofInt]
  obtain ⟨hlo, hhi⟩ := adjustedExponent_normal.2 (classOf_eq_normal.1 h)
  omega

/-- Only the normal class has a nonzero mantissa, so no output is a subnormal (R77) or a NaN (R78). -/
theorem fp16Exponent_range_of_mantissa_ne_zero {x : Bits32} (h : fp16Mantissa (convert x) ≠ 0#10) :
    1 ≤ (fp16Exponent (convert x)).toNat ∧ (fp16Exponent (convert x)).toNat ≤ 30 := by
  cases hclass : classOf x with
  | zero => exact absurd (fp16Mantissa_convert_of_zero hclass) h
  | clip => exact absurd (fp16Mantissa_convert_of_clip hclass) h
  | normal =>
    have hexp := toNat_fp16Exponent_of_normal hclass
    have hadj := adjustedExponent_normal.2 (classOf_eq_normal.1 hclass)
    omega

/-- In the range of the normal class, placing all of `adj` at bit 10 loses and adds no bit (R71). -/
theorem exponentField_eq {adj : Int} (hlo : 0 ≤ adj) (hhi : adj < 32) :
    exponentField adj = BitVec.ofInt 16 adj <<< 10 := by
  have hwiden : (BitVec.ofInt 5 adj).setWidth 16 = BitVec.ofInt 16 adj := by
    apply BitVec.eq_of_toNat_eq
    simp only [BitVec.toNat_setWidth, BitVec.toNat_ofInt]
    omega
  rw [exponentField, hwiden]

end Sys2Proof.Machine

/-! ### The pseudocode, and the bits `Convert` reads (40_convert_one.md R63, R66 to R68) -/

namespace Sys2Proof.Machine

/-- The pseudocode of R63 tests the adjusted exponent where the model tests the class. -/
theorem convert_eq_ite (x : Bits32) :
    convert x =
      if adjustedExponent x ≤ 0 then signField x
      else if adjustedExponent x ≥ 31 then signField x ||| inf16
      else signField x ||| exponentField (adjustedExponent x) ||| mantissaField x := by
  split_ifs with hzero hclip
  · exact convert_of_zero (classOf_eq_zero.2 (adjustedExponent_le_clipLo.1 hzero))
  · exact convert_of_clip (classOf_eq_clip.2 (adjustedExponent_ge_clipHi.1 hclip))
  · exact convert_of_normal (classOf_eq_normal.2 (adjustedExponent_normal.1 (by omega)))

/-- A field of a field, at any start. -/
theorem extractLsb'_of_extractLsb' {w start len i n : Nat} {x : BitVec w} (h : i + n ≤ len) :
    (x.extractLsb' start len).extractLsb' i n = x.extractLsb' (start + i) n := by
  ext j hj
  have hin : i + j < len := by omega
  simp [hin, Nat.add_assoc]

/-- `Convert` reads the sign, the exponent and the top 10 mantissa bits only (R66 to R68). -/
theorem convert_congr {x x' : Bits32} (hsign : fp32Sign x' = fp32Sign x)
    (hexp : fp32Exponent x' = fp32Exponent x) (hmant : x'.extractLsb' 13 10 = x.extractLsb' 13 10) :
    convert x' = convert x := by
  have hs : signField x' = signField x := by rw [signField_eq, signField_eq, hsign]
  have hm : mantissaField x' = mantissaField x := by rw [mantissaField_eq, mantissaField_eq, hmant]
  have hadj : adjustedExponent x' = adjustedExponent x := by rw [adjustedExponent, rawExponent, hexp]; rfl
  rw [convert_eq_ite, convert_eq_ite, hs, hadj, hm]

end Sys2Proof.Machine

/-! ### The scalar conversion (40_convert_one.md) -/

namespace Sys2Proof.Machine

/-- Settles O9: the sign of an assembled result is its sign field, and the mask `0x8000` picks it out. -/
theorem signBitPassesThrough : Obligations.SignBitPassesThrough := fun x =>
  ⟨fp16Sign_convert x, rfl, convert_and_sign16 x⟩

/-- Settles O11: bits 31 to 13 hold the three fields that `convert` reads. -/
theorem lowMantissaBitsDiscarded : Obligations.LowMantissaBitsDiscarded := by
  refine fun x => ⟨mantissaField_eq x, fun x' h => ?_⟩
  have hfield (i n : Nat) (hi : i + n ≤ 19) : x'.extractLsb' (13 + i) n = x.extractLsb' (13 + i) n := by
    rw [← extractLsb'_of_extractLsb' hi, ← extractLsb'_of_extractLsb' hi, h]
  exact convert_congr (hfield 18 1 (by decide)) (hfield 10 8 (by decide)) (hfield 0 10 (by decide))

/-- Settles O12: `adj ≤ 0` selects the zero class, which assembles two zero fields under the sign. -/
theorem lowExponentGivesSignedZero : Obligations.LowExponentGivesSignedZero := by
  refine fun x => ⟨adjustedExponent_le_clipLo, fun h => ?_⟩
  have hclass : classOf x = .zero := classOf_eq_zero.2 (adjustedExponent_le_clipLo.1 h)
  refine ⟨convert_of_zero hclass, ?_, ?_, fp16Mantissa_convert_of_zero hclass⟩
  · rw [convert_of_zero hclass, signField_eq]
  · rw [convert_eq_assembleResult_of_zero hclass, fp16Exponent_assembleResult]

/-- Settles O13: `adj ≥ 31` selects the clip class, which assembles an exponent of all ones and a zero mantissa. -/
theorem highExponentGivesSignedInfinity : Obligations.HighExponentGivesSignedInfinity := by
  refine fun x => ⟨adjustedExponent_ge_clipHi, fun h => ?_⟩
  have hclass : classOf x = .clip := classOf_eq_clip.2 (adjustedExponent_ge_clipHi.1 h)
  refine ⟨convert_of_clip hclass, ?_, ?_, fp16Mantissa_convert_of_clip hclass⟩
  · rw [convert_of_clip hclass, signField_eq]
    rfl
  · rw [convert_eq_assembleResult_of_clip hclass, fp16Exponent_assembleResult]

/-- Settles O14: `1 ≤ adj ≤ 30` selects the normal class, whose adjusted exponent fits the 5 bits of the field. -/
theorem normalExponentIsRebiased : Obligations.NormalExponentIsRebiased := by
  refine fun x => ⟨adjustedExponent_normal, fun hlo hhi => ?_⟩
  have hclass : classOf x = .normal := classOf_eq_normal.2 (adjustedExponent_normal.1 ⟨hlo, hhi⟩)
  refine ⟨?_, toNat_fp16Exponent_of_normal hclass, ?_⟩
  · rw [convert_of_normal hclass, exponentField_eq (by omega) (by omega)]
  · rw [convert_eq_assembleResult_of_normal hclass, fp16Mantissa_assembleResult]

/-- Settles O19: the raw exponent of such an input is at most 112; a nonzero output mantissa comes with an exponent
field of at least 1. -/
theorem subnormalsCollapseToSignedZero : Obligations.SubnormalsCollapseToSignedZero := by
  refine ⟨fun x h => convert_eq_signedZero (by omega), fun x ⟨hexp, hmant⟩ => ?_⟩
  obtain ⟨hlo, -⟩ := fp16Exponent_range_of_mantissa_ne_zero hmant
  simp [hexp] at hlo

/-- Settles O20: a raw exponent of 255 clips whatever the mantissa; a nonzero output mantissa comes with an exponent
field of at most 30. -/
theorem nansCollapseToSignedInfinity : Obligations.NansCollapseToSignedInfinity := by
  refine ⟨fun x hnan _ => ?_, fun x ⟨hexp, hmant⟩ => ?_⟩
  · have hinf := convert_eq_signedInfinity (x := x) (by omega)
    exact ⟨fun hsign => by simp [hinf, hsign], fun hsign => by simp [hinf, hsign]⟩
  · obtain ⟨-, hhi⟩ := fp16Exponent_range_of_mantissa_ne_zero hmant
    simp [hexp] at hhi

/-- Settles O21: every raw exponent from 143 on clips, 255 with mantissa 0 (the two infinities) among them. -/
theorem overflowSaturatesToSignedInfinity : Obligations.OverflowSaturatesToSignedInfinity :=
  ⟨convert_eq_signedInfinity (by decide), convert_eq_signedInfinity (by decide),
    fun _ h _ => convert_eq_signedInfinity h⟩

/-- Settles O8: the driven port shows `convert`, and the model's constants are the numbers of the pseudocode. -/
theorem convertFollowsPseudocode : Obligations.ConvertFollowsPseudocode := fun _ x =>
  ⟨rfl, convert_eq_ite x⟩

/-- Settles O10: an 8-bit raw exponent lies from 0 to 255. -/
theorem rebiasIsExact : Obligations.RebiasIsExact := by
  intro x
  have hraw := rawExponent_lt x
  have hadj := adjustedExponent_eq x
  exact ⟨rfl, by omega, by omega, rfl⟩

/-- Settles O28: the arm of `convertOne` is two record updates, and `0x3F800000` (the value 1) is in the normal class. -/
theorem convertOneAppendsResult : Obligations.ConvertOneAppendsResult :=
  ⟨exec_convertOne, fun _ => decode_of_op_zero, fun _ _ => rfl, by decide⟩

end Sys2Proof.Machine

/-! ### The bulk conversion (41_convert_many.md) -/

namespace Sys2Proof.Machine

/-- Two buffers agree on a range that both have been written with the same values. -/
theorem Memory.read_writeRange_congr {w : Nat} {m₁ m₁' m₂ m₂' : Memory w} {j : Nat} {vs : List (BitVec w)}
    (h₁ : m₁.writeRange j vs = some m₁') (h₂ : m₂.writeRange j vs = some m₂') {i : Nat} (hlo : j ≤ i)
    (hhi : i < j + vs.length) : m₁'.read i = m₂'.read i := by
  obtain ⟨k, rfl⟩ := Nat.exists_eq_add_of_le hlo
  have hk : vs[k]? = some vs[k] := List.getElem?_eq_getElem (by omega)
  rw [read_writeRange_inside h₁ hk, read_writeRange_inside h₂ hk]

section

variable {inOff outOff count : Nat} {s : State}

/-- The bounds check reads the lengths of the buffers only. -/
theorem fits_setOutput {output : Memory 16} (hlen : output.len = s.OUT.len) :
    fits inOff outOff count (s.setOutput output) ↔ fits inOff outOff count s := by
  simp [fits, hlen]

/-- R89: outside the bounds the command takes BoundsViolation. -/
theorem exec_convertMany_of_not_fits (h : ¬ fits inOff outOff count s) :
    exec (.convertMany inOff outOff count) s =
      .next (s.raise (.boundsViolation inOff outOff count s.IN.len s.OUT.len)) := by
  obtain ⟨-, hexec⟩ | ⟨hfits, -⟩ := execConvertMany_cases inOff outOff count s
  · exact hexec
  · exact absurd hfits h

/-- R90: inside the bounds, a read that meets an unwritten element takes UninitialisedInput there. -/
theorem exec_convertMany_of_unwritten {i : Nat} (h : fits inOff outOff count s)
    (hread : s.IN.readRange inOff count = .unwritten i) :
    exec (.convertMany inOff outOff count) s = .next (s.raise (.uninitialisedInput i)) := by
  obtain ⟨hnot, -⟩ | ⟨-, ⟨i', hread', hexec⟩ | ⟨ws, _, hread', -⟩⟩ := execConvertMany_cases inOff outOff count s
  · exact absurd h hnot
  · cases hread.symm.trans hread'
    exact hexec
  · cases hread.symm.trans hread'

/-- R92: inside the bounds, a read that gives all its words has their conversions written, in order. -/
theorem exec_convertMany_of_values {ws : List Bits32} (h : fits inOff outOff count s)
    (hread : s.IN.readRange inOff count = .values ws) :
    ∃ output, s.OUT.writeRange outOff (ws.map convert) = some output ∧
      exec (.convertMany inOff outOff count) s = .next (s.setOutput output).advance := by
  obtain ⟨hnot, -⟩ | ⟨-, ⟨_, hread', -⟩ | ⟨ws', output, hread', hwrite, hexec⟩⟩ :=
    execConvertMany_cases inOff outOff count s
  · exact absurd h hnot
  · cases hread.symm.trans hread'
  · cases hread.symm.trans hread'
    exact ⟨output, hwrite, hexec⟩

/-- An input range inside the buffer whose elements all hold values reads as its words. -/
theorem readRange_of_inputWritten (h : fits inOff outOff count s) (hw : inputWritten inOff count s) :
    ∃ ws, s.IN.readRange inOff count = .values ws := by
  cases hread : s.IN.readRange inOff count with
  | outside e => exact absurd hread (Memory.readRange_ne_outside h.1 e)
  | unwritten e =>
    obtain ⟨k, hk, rfl, hunwritten, -⟩ := Memory.readRange_eq_unwritten.1 hread
    obtain ⟨v, hv⟩ := hw k hk
    cases hunwritten.symm.trans hv
  | values ws => exact ⟨ws, rfl⟩

/-- R89 and R93: a `convertMany` of no element reads and writes none and advances, whatever its offsets. -/
theorem exec_convertMany_zero (inOff outOff : Nat) (s : State) :
    exec (.convertMany inOff outOff 0) s = .next s.advance := by
  have hfits : fits inOff outOff 0 s := ⟨Nat.zero_le _, Nat.zero_le _⟩
  obtain ⟨output, hwrite, hexec⟩ := exec_convertMany_of_values hfits (ws := []) rfl
  cases hwrite
  exact hexec

end

/-- Settles O29: all `count` words are read, so the range is written with their conversions, in order, and every element
outside it reads as before. -/
theorem convertManyWritesConversions : Obligations.ConvertManyWritesConversions := by
  intro inOff outOff count s hfits hinput
  obtain ⟨ws, hread⟩ := readRange_of_inputWritten hfits hinput
  obtain ⟨output, hwrite, hexec⟩ := exec_convertMany_of_values hfits hread
  obtain ⟨hlen, hwords⟩ := Memory.readRange_eq_values.1 hread
  refine ⟨_, hexec, rfl, rfl, rfl, rfl, rfl, Memory.writeRange_len hwrite, fun k hk => ?_, fun j hj => ?_, ?_⟩
  · have hget : ws[k]? = some ws[k] := List.getElem?_eq_getElem (by omega)
    exact ⟨ws[k], hwords k _ hget, Memory.read_writeRange_inside hwrite (by simp [hget])⟩
  · have hout : j < outOff ∨ outOff + (ws.map convert).length ≤ j := by
      simp only [List.length_map, hlen]
      omega
    exact Memory.read_writeRange_outside hwrite hout
  · rintro rfl
    cases hexec.symm.trans (exec_convertMany_zero inOff outOff s)
    rfl

/-- Settles O31: outside the bounds the next state holds BoundsViolation, so a command that completes is inside them. -/
theorem boundsViolationIsTaken : Obligations.BoundsViolationIsTaken := by
  refine fun inOff outOff count s => ⟨exec_convertMany_of_not_fits, fun t _ hexec hdone => ?_, ?_⟩
  · by_contra hnot
    cases hexec.symm.trans (exec_convertMany_of_not_fits hnot)
    cases hdone
  · rintro rfl
    exact ⟨Nat.zero_le _, Nat.zero_le _⟩

/-- Settles O32: the reads of the command go up in index, so they report the first element without a value. -/
theorem uninitialisedInputIsTaken : Obligations.UninitialisedInputIsTaken :=
  fun _ _ _ k _ hfits hk hunwritten hbefore =>
    exec_convertMany_of_unwritten hfits (Memory.readRange_eq_unwritten.2 ⟨k, hk, rfl, hunwritten, hbefore⟩)

/-- Settles O42: the bounds check and the reads answer the same on both states, so both take the same branch, and a
completed command writes the conversions of the same words. -/
theorem oldOutputNeverInfluences : Obligations.OldOutputNeverInfluences := by
  intro inOff outOff count s t t' output _ hlen hexec hexec'
  change exec _ (s.setOutput output) = _ at hexec'
  have hin : t.IN = s.IN := (exec_sameConfiguration hexec).input
  have hin' : t'.IN = s.IN := (exec_sameConfiguration hexec').input
  refine ⟨hin, hin'.trans hin.symm, ?_⟩
  obtain ⟨hnot, hrun⟩ | ⟨hfits, ⟨i, hread, hrun⟩ | ⟨ws, out, hread, hwrite, hrun⟩⟩ :=
    execConvertMany_cases inOff outOff count s
  · cases hexec.symm.trans hrun
    cases hexec'.symm.trans (exec_convertMany_of_not_fits (mt (fits_setOutput hlen).1 hnot))
    simp [hlen]
  · cases hexec.symm.trans hrun
    cases hexec'.symm.trans (exec_convertMany_of_unwritten ((fits_setOutput hlen).2 hfits) hread)
    simp
  · obtain ⟨out', hwrite', hrun'⟩ := exec_convertMany_of_values ((fits_setOutput hlen).2 hfits) hread
    cases hexec.symm.trans hrun
    cases hexec'.symm.trans hrun'
    refine ⟨rfl, rfl, rfl, fun _ j ⟨hlo, hhi⟩ => Memory.read_writeRange_congr hwrite' hwrite hlo ?_⟩
    simpa [(Memory.readRange_eq_values.1 hread).1] using hhi

end Sys2Proof.Machine

/-! ### Faults (60_exceptions.md) -/

namespace Sys2Proof.Machine

/-- R101 and R105: the record that `convertMany inOff outOff count` takes in state `s`. The reads are made inside the
bounds only. -/
inductive RaisesFault (inOff outOff count : Nat) (s : State) : FaultRecord → Prop where
  | boundsViolation (hbounds : ¬ fits inOff outOff count s) :
      RaisesFault inOff outOff count s (.boundsViolation inOff outOff count s.IN.len s.OUT.len)
  | uninitialisedInput {i : Nat} (hfits : fits inOff outOff count s)
      (hread : s.IN.readRange inOff count = .unwritten i) :
      RaisesFault inOff outOff count s (.uninitialisedInput i)

/-- What a command that records a fault is and does, once: it is a `convertMany`, and it takes its fault and does
nothing else. -/
theorem exec_eq_raise {i : Instr} {s t : State} {r : FaultRecord} (hs : s.fault = none) (h : exec i s = .next t)
    (ht : t.fault = some r) :
    t = s.raise r ∧ ∃ inOff outOff count, i = .convertMany inOff outOff count ∧ RaisesFault inOff outOff count s r := by
  cases i with
  | convertOne bits32 =>
    cases (exec_convertOne bits32 s).symm.trans h
    cases hs.symm.trans ht
  | convertMany inOff outOff count =>
    rw [exec_convertMany] at h
    obtain ⟨hbounds, hexec⟩ | ⟨hfits, ⟨e, hread, hexec⟩ | ⟨_, _, -, -, hexec⟩⟩ :=
      execConvertMany_cases inOff outOff count s
    · cases hexec.symm.trans h
      cases ht
      exact ⟨rfl, inOff, outOff, count, rfl, .boundsViolation hbounds⟩
    · cases hexec.symm.trans h
      cases ht
      exact ⟨rfl, inOff, outOff, count, rfl, .uninitialisedInput hfits hread⟩
    · cases hexec.symm.trans h
      cases hs.symm.trans ht

/-- R89's condition is the failure of the bounds precondition. -/
theorem not_fits_iff {inOff outOff count : Nat} {s : State} :
    ¬ fits inOff outOff count s ↔ count > s.IN.len - inOff ∨ count > s.OUT.len - outOff := by
  simp only [fits, not_and_or, not_le, gt_iff_lt]

/-- R103: no step leaves a state with a fault recorded, so a run from one has taken none. -/
theorem runSteps_of_fault {n : Nat} {s t : State} (hs : s.fault ≠ none) (h : runSteps n s = .next t) : t = s := by
  cases n with
  | zero =>
    cases h
    rfl
  | succ n =>
    obtain ⟨u, hstep, -⟩ := runSteps_succ_eq_next.1 h
    obtain ⟨_, hnone, -⟩ := step_eq_next.1 hstep
    exact absurd hnone hs

/-- Settles O33: the two ways to raise a fault are the two causes, the bounds first, and the ascending reads stop at the
first unwritten element; a run from a faulted state takes no step. -/
theorem faultCausesAndPriority : Obligations.FaultCausesAndPriority := by
  refine ⟨fun i s t r hs h ht => ?_, fun n s t r hs h => ?_⟩
  · obtain ⟨-, inOff, outOff, count, hi, hraise⟩ := exec_eq_raise hs h ht
    refine ⟨inOff, outOff, count, hi, ?_⟩
    cases hraise with
    | boundsViolation hbounds => exact .inl ⟨rfl, rfl, not_fits_iff.1 hbounds⟩
    | uninitialisedInput hfits hread =>
      obtain ⟨k, hk, rfl, hunwritten, hbefore⟩ := Memory.readRange_eq_unwritten.1 hread
      refine .inr ⟨rfl, fun hbounds => not_fits_iff.2 hbounds hfits, k, hk, rfl, hunwritten, fun l hl hl' => ?_⟩
      obtain ⟨v, hv⟩ := hbefore l hl
      cases hl'.symm.trans hv
  · rw [runSteps_of_fault (by simp [hs]) h]
    exact hs

/-- Settles O34: a command that records a fault answers the state before it with the fault raised. -/
theorem faultingCommandChangesOnlyFault : Obligations.FaultingCommandChangesOnlyFault := by
  intro i s t hs h ht
  obtain ⟨r, hr⟩ := Option.ne_none_iff_exists'.1 ht
  obtain ⟨rfl, -⟩ := exec_eq_raise hs h hr
  rfl

end Sys2Proof.Machine

/-! ### What a step does, by how it ends (60_exceptions.md R102 to R104, 41_convert_many.md R98) -/

namespace Sys2Proof.Machine

/-- What a command can do, once: `convertOne` appends its conversion (R64), and `convertMany` takes a fault (R101) or
has passed the bounds check, read its words and written their conversions (R89, R90, R92). -/
inductive Effect (s : State) : Instr → State → Prop where
  | appended (bits32 : Bits32) : Effect s (.convertOne bits32) (s.appendResult (convert bits32)).advance
  | faulted {inOff outOff count : Nat} {r : FaultRecord} (hraise : RaisesFault inOff outOff count s r) :
      Effect s (.convertMany inOff outOff count) (s.raise r)
  | written {inOff outOff count : Nat} {ws : List Bits32} {output : Memory 16} (hfits : fits inOff outOff count s)
      (hread : s.IN.readRange inOff count = .values ws)
      (hwrite : s.OUT.writeRange outOff (ws.map convert) = some output) :
      Effect s (.convertMany inOff outOff count) (s.setOutput output).advance

/-- Neither operation stops: the bounds check keeps every access inside its buffer (R89). -/
theorem exec_isNext (i : Instr) (s : State) : ∃ t, exec i s = .next t ∧ Effect s i t := by
  cases i with
  | convertOne bits32 => exact ⟨_, exec_convertOne bits32 s, .appended bits32⟩
  | convertMany inOff outOff count =>
    rw [exec_convertMany]
    obtain ⟨hbounds, hexec⟩ | ⟨hfits, ⟨_, hread, hexec⟩ | ⟨_, _, hread, hwrite, hexec⟩⟩ :=
      execConvertMany_cases inOff outOff count s
    · exact ⟨_, hexec, .faulted (.boundsViolation hbounds)⟩
    · exact ⟨_, hexec, .faulted (.uninitialisedInput hfits hread)⟩
    · exact ⟨_, hexec, .written hfits hread hwrite⟩

theorem effect_of_exec {i : Instr} {s t : State} (h : exec i s = .next t) : Effect s i t := by
  obtain ⟨_, hexec, heffect⟩ := exec_isNext i s
  cases hexec.symm.trans h
  exact heffect

/-- A command that leaves no fault recorded has completed: it advances `pc` by one. -/
theorem exec_pc_of_completed {i : Instr} {s t : State} (h : exec i s = .next t) (ht : t.fault = none) :
    t.pc = s.pc + 1 := by
  cases effect_of_exec h with
  | appended => rfl
  | faulted => cases ht
  | written => rfl

/-- What a `convertMany` that completes has done (R92). -/
theorem exec_convertMany_completed {inOff outOff count : Nat} {s t : State}
    (h : exec (.convertMany inOff outOff count) s = .next t) (ht : t.fault = none) :
    ∃ ws output, fits inOff outOff count s ∧ s.IN.readRange inOff count = .values ws ∧
      s.OUT.writeRange outOff (ws.map convert) = some output ∧ t = (s.setOutput output).advance := by
  cases effect_of_exec h with
  | faulted => cases ht
  | written hfits hread hwrite => exact ⟨_, _, hfits, hread, hwrite, rfl⟩

/-- A command that writes `OUT` keeps its canonical form, and one that does not leaves it alone. -/
theorem exec_output_wf {i : Instr} {s t : State} (h : exec i s = .next t) (hs : s.OUT.wf) : t.OUT.wf := by
  cases effect_of_exec h with
  | appended => exact hs
  | faulted => exact hs
  | written _ _ hwrite => exact Memory.writeRange_wf hwrite hs

theorem step_output_wf {s t : State} (h : step s = .next t) (hs : s.OUT.wf) : t.OUT.wf := by
  obtain ⟨_, -, -, hexec⟩ := step_eq_next.1 h
  exact exec_output_wf hexec hs

theorem step_of_fault {s : State} (h : s.fault ≠ none) : step s = .fault .faultRecorded := by
  obtain ⟨r, hr⟩ := Option.ne_none_iff_exists'.1 h
  simp [step, fetch, hr]

theorem step_fault_eq_none {s t : State} (h : step s = .next t) : s.fault = none := by
  obtain ⟨_, hs, -, -⟩ := step_eq_next.1 h
  exact hs

theorem step_pc_of_completed {s t : State} (h : step s = .next t) (ht : t.fault = none) : t.pc = s.pc + 1 := by
  obtain ⟨_, -, -, hexec⟩ := step_eq_next.1 h
  exact exec_pc_of_completed hexec ht

theorem step_pc_of_faulted {s t : State} (h : step s = .next t) (ht : t.fault ≠ none) : t.pc = s.pc := by
  obtain ⟨_, hs, -, hexec⟩ := step_eq_next.1 h
  obtain ⟨r, hr⟩ := Option.ne_none_iff_exists'.1 ht
  rw [(exec_eq_raise hs hexec hr).1, State.raise_pc]

/-- A state that steps has a command at `pc`. -/
theorem step_pc_lt {s t : State} (h : step s = .next t) : s.pc < s.prog.length := by
  obtain ⟨_, -, hprog, -⟩ := step_eq_next.1 h
  exact (List.getElem?_eq_some_iff.1 hprog).1

/-- R103: without a fault and with a command at `pc`, the step exists. -/
theorem step_isNext {s : State} (hs : s.fault = none) (hpc : s.pc < s.prog.length) : ∃ t, step s = .next t := by
  obtain ⟨t, hexec, -⟩ := exec_isNext (decode s.prog[s.pc]) s
  exact ⟨t, step_eq_next.2 ⟨_, hs, List.getElem?_eq_getElem hpc, hexec⟩⟩

end Sys2Proof.Machine

/-! ### The invariant (10_state.md R18, 20_memory.md, 60_exceptions.md R101, R105, R107) -/

namespace Sys2Proof.Machine

/-- A fault the command at `pc` raises explains itself in the state it leaves, which has the same `pc`, program and
buffers. -/
theorem faultExplained_raise {inOff outOff count : Nat} {s : State} {r : FaultRecord} {c : Cmd}
    (hprog : s.prog[s.pc]? = some c) (hc : decode c = .convertMany inOff outOff count)
    (h : RaisesFault inOff outOff count s r) : faultExplained (s.raise r) r := by
  have hcmd : (s.prog[s.pc]?).map decode = some (.convertMany inOff outOff count) := by rw [hprog, Option.map_some, hc]
  cases h with
  | boundsViolation hbounds => exact ⟨hcmd, rfl, rfl, hbounds⟩
  | uninitialisedInput hfits hread =>
    obtain ⟨k, hk, hi, hunwritten, hbefore⟩ := Memory.readRange_eq_unwritten.1 hread
    exact ⟨inOff, outOff, count, k, hcmd, hfits, hk, hi, hunwritten, hbefore⟩

/-- A step keeps `pc` within the program: only a command that was there completes, and by one. -/
theorem step_pc_le {s t : State} (h : step s = .next t) : t.pc ≤ t.prog.length := by
  have hlt := step_pc_lt h
  rw [(step_sameConfiguration h).prog]
  by_cases ht : t.fault = none
  · rw [step_pc_of_completed h ht]
    omega
  · rw [step_pc_of_faulted h ht]
    omega

theorem step_faultExplained {s t : State} {r : FaultRecord} (h : step s = .next t) (ht : t.fault = some r) :
    faultExplained t r := by
  obtain ⟨c, hs, hprog, hexec⟩ := step_eq_next.1 h
  obtain ⟨rfl, inOff, outOff, count, hc, hraise⟩ := exec_eq_raise hs hexec ht
  exact faultExplained_raise hprog hc hraise

/-- Settles O47: `IN` does not change, the writes to `OUT` keep its form, `pc` passes the fetched command only, and a
new fault is the fetched command's own. -/
theorem stepKeepsInvariant : Obligations.StepKeepsInvariant := fun _ _ hinv h =>
  { input := (step_sameConfiguration h).input ▸ hinv.input
    output := step_output_wf h hinv.output
    pcInProg := step_pc_le h
    faulted := fun _ hr => step_faultExplained h hr }

/-- Settles O46: a launch has `pc = 0` and no fault, and buffers without a written element are in canonical form. -/
theorem launchMeetsInvariant : Obligations.LaunchMeetsInvariant := by
  have hlaunch (prog : List Cmd) (input : Memory 32) (output : Memory 16) (hin : input.wf) (hout : output.wf) :
      Inv (State.launch prog input output) :=
    { input := hin, output := hout, pcInProg := Nat.zero_le _, faulted := fun _ hr => nomatch hr }
  exact ⟨hlaunch _ _ _ (Memory.unwritten_wf 32 0) (Memory.unwritten_wf 16 0), hlaunch⟩

end Sys2Proof.Machine

/-! ### Commands, launches and the end of a run (10_state.md, 60_exceptions.md, 70_reset_and_hazards.md) -/

namespace Sys2Proof.Machine

theorem step_eq_exec {s : State} {c : Cmd} (hs : s.fault = none) (hprog : s.prog[s.pc]? = some c) :
    step s = exec (decode c) s := by
  simp [step, fetch_eq_next.2 ⟨hs, hprog⟩]

/-- R117: the run is over exactly where no fault is recorded and `pc` is at the end of the program. -/
theorem step_eq_runComplete {s : State} : step s = .fault .runComplete ↔ s.final := by
  by_cases hs : s.fault = none
  · cases hprog : s.prog[s.pc]? with
    | some c =>
      obtain ⟨t, hexec, -⟩ := exec_isNext (decode c) s
      have hlt := (List.getElem?_eq_some_iff.1 hprog).1
      simp [step_eq_exec hs hprog, hexec, State.final, hlt.ne]
    | none => by_cases hend : s.pc = s.prog.length <;> simp [step, fetch, hs, hprog, hend, State.final]
  · simp [step_of_fault hs, State.final, hs]

/-- Settles O2: each record carries its operation's `op` and operands. -/
theorem decodeOfEncodedInstruction : Obligations.DecodeOfEncodedInstruction := by
  intro i
  cases i with
  | convertOne bits32 => exact decode_of_op_zero rfl
  | convertMany inOff outOff count => exact decode_of_op_one rfl

/-- Settles O3: in either operation the fields that `encode` fills with 0 are the ones the record has at 0. -/
theorem encodeOfDecodedCommand : Obligations.EncodeOfDecodedCommand := by
  rintro ⟨op, bits32, inOff, outOff, count⟩ hown
  obtain rfl | rfl := BitVec.eq_zero_or_eq_one op
  · simp_all [Cmd.ownFieldsOnly, decode, encode]
  · simp_all [Cmd.ownFieldsOnly, decode, encode]

/-- Settles O4: the `op` field of each record is a literal. -/
theorem specProgramRecordsDecode : Obligations.SpecProgramRecordsDecode :=
  ⟨decode_of_op_zero rfl, decode_of_op_zero rfl, decode_of_op_one rfl, decode_of_op_one rfl⟩

/-- Settles O5: the fetch answers the record at `pc`. -/
theorem stepRunsDecodedCommand : Obligations.StepRunsDecodedCommand := fun _ _ => step_eq_exec

/-- Settles O30: no element is read or written. -/
theorem emptyConvertManyOnlyAdvances : Obligations.EmptyConvertManyOnlyAdvances := exec_convertMany_zero

/-- Settles O35: each operation answers a next state. -/
theorem everyCommandHasNextState : Obligations.EveryCommandHasNextState := fun i s =>
  let ⟨t, hexec, _⟩ := exec_isNext i s
  ⟨t, hexec⟩

/-- Settles O36: the fetch refuses a recorded fault, so only unfaulted states step, and a run from a faulted one is
empty. -/
theorem faultedStateIsStuck : Obligations.FaultedStateIsStuck :=
  ⟨fun _ hs => ⟨step_of_fault hs, fun hfinal => hs hfinal.1⟩,
    fun _ _ h => ⟨step_fault_eq_none h, step_pc_of_faulted h⟩,
    fun _ _ _ => runSteps_of_fault,
    State.launch_fault⟩

/-- Settles O37: `pc` moves by one when the command completes; a fault keeps it, and the fetch refuses from then on. -/
theorem completedCommandAdvancesByOne : Obligations.CompletedCommandAdvancesByOne := fun _ _ h =>
  ⟨step_pc_of_completed h, fun ht => ⟨step_pc_of_faulted h ht, step_of_fault ht⟩⟩

/-- Settles O38: the launch fixes `pc`, `results` and `fault` and takes the rest as given. -/
theorem launchStateValues : Obligations.LaunchStateValues := fun prog input output =>
  ⟨State.launch_pc prog input output, State.launch_results prog input output, State.launch_fault prog input output,
    State.launch_IN prog input output, State.launch_OUT prog input output, State.launch_prog prog input output⟩

/-- Settles O39: a launch has `pc = 0` and no fault, so its first step fetches the first record. -/
theorem runBeginsAtCommandZeroAndEnds : Obligations.RunBeginsAtCommandZeroAndEnds :=
  ⟨fun _ _ _ _ => step_eq_exec rfl rfl, fun _ => step_eq_runComplete⟩

/-- Settles O41: of the three effects only that of `convertOne` appends. -/
theorem onlyConvertOneWritesResults : Obligations.OnlyConvertOneWritesResults := by
  intro i s t h
  cases effect_of_exec h with
  | appended bits32 => exact .inl ⟨bits32, rfl, rfl⟩
  | faulted => exact .inr ⟨_, _, _, rfl, rfl⟩
  | written => exact .inr ⟨_, _, _, rfl, rfl⟩

/-- Settles O48: by induction on the commands left, since a step either faults or leaves one command fewer. -/
theorem everyRunEnds : Obligations.EveryRunEnds := by
  intro s hs hpc
  induction hleft : s.prog.length - s.pc generalizing s with
  | zero => exact ⟨0, s, le_rfl, runSteps_zero s, .inl ⟨hs, by omega⟩⟩
  | succ left ih =>
    obtain ⟨t, hstep⟩ := step_isNext hs (by omega)
    by_cases ht : t.fault = none
    · have hprog := (step_sameConfiguration hstep).prog
      have hadvance := step_pc_of_completed hstep ht
      obtain ⟨n, u, hn, hrun, hend⟩ := ih t ht (step_pc_le hstep) (by rw [hprog, hadvance]; omega)
      exact ⟨n + 1, u, by omega, runSteps_succ_eq_next.2 ⟨t, hstep, hrun⟩, hend⟩
    · exact ⟨1, t, by omega, runSteps_succ_eq_next.2 ⟨t, hstep, runSteps_zero t⟩, .inr ht⟩

end Sys2Proof.Machine

/-! ### Lanes, repetition and scalar runs of a bulk conversion (41_convert_many.md section 4) -/

namespace Sys2Proof.Machine

/-- R93 and R97: lane `k` of a completed `convertMany` holds the conversion of its own input element. -/
theorem lane_of_completed {inOff outOff count k : Nat} {s t : State} (hk : k < count)
    (h : exec (.convertMany inOff outOff count) s = .next t) (ht : t.fault = none) :
    ∃ w, s.IN.read (inOff + k) = .value w ∧ t.OUT.read (outOff + k) = .value (convert w) := by
  obtain ⟨ws, output, -, hread, hwrite, rfl⟩ := exec_convertMany_completed h ht
  obtain ⟨hlen, hwords⟩ := Memory.readRange_eq_values.1 hread
  have hget : ws[k]? = some ws[k] := List.getElem?_eq_getElem (by omega)
  exact ⟨ws[k], hwords k _ hget, Memory.read_writeRange_inside hwrite (by simp [hget])⟩

/-- Writing a range of a buffer in canonical form once more changes nothing. -/
theorem Memory.writeRange_again {w : Nat} {m m' : Memory w} {j : Nat} {vs : List (BitVec w)} (hm : m.wf)
    (h : m.writeRange j vs = some m') (hin : vs = [] ∨ j + vs.length ≤ m.len) : m'.writeRange j vs = some m' := by
  have hlen := writeRange_len h
  obtain ⟨m'', h'⟩ := writeRange_isSome (hlen.symm ▸ hin)
  have hsame : m'' = m' := by
    have hm' := writeRange_wf h hm
    refine ext_of_wf (writeRange_wf h' hm') hm' (writeRange_len h') fun i => ?_
    by_cases hi : i < j ∨ j + vs.length ≤ i
    · exact read_writeRange_outside h' hi
    · exact read_writeRange_congr h' h (by omega) (by omega)
  rw [h', hsame]

/-- The program of one `convertOne` per word, from any state at its start: it appends the conversions in order. -/
theorem runSteps_convertOnes (ws : List Bits32) {s : State} (hs : s.fault = none)
    (hprog : s.prog.drop s.pc = ws.map fun w => encode (.convertOne w)) :
    runSteps ws.length s =
      .next { s with pc := s.pc + ws.length, results := s.results ++ ws.map convert } := by
  induction ws generalizing s with
  | nil => simp
  | cons w ws ih =>
    have hcmd : s.prog[s.pc]? = some (encode (.convertOne w)) := by
      rw [← List.head?_drop, hprog, List.map_cons, List.head?_cons]
    have hrest : s.prog.drop (s.pc + 1) = ws.map fun w => encode (.convertOne w) := by
      rw [← List.tail_drop, hprog, List.map_cons, List.tail_cons]
    have hstep : step s = .next (s.appendResult (convert w)).advance := by
      rw [step_eq_exec hs hcmd, decodeOfEncodedInstruction, exec_convertOne]
    rw [List.length_cons, runSteps_succ, hstep]
    refine (ih (s := (s.appendResult (convert w)).advance) hs hrest).trans ?_
    simp [Nat.add_assoc, Nat.add_comm 1]

/-- Settles O43: each of the two lanes is the conversion of its own input element, and these agree. -/
theorem lanesAreIndependent : Obligations.LanesAreIndependent := by
  intro inOff outOff count k s s' t t' _ _ hk hsame h ht h' ht'
  obtain ⟨w, hw, hout⟩ := lane_of_completed hk h ht
  obtain ⟨w', hw', hout'⟩ := lane_of_completed hk h' ht'
  cases hw'.symm.trans (hsame.trans hw)
  exact hout'.trans hout.symm

/-- Settles O44: the second command passes the same bounds check and reads the same words, and writing their
conversions once more changes nothing. -/
theorem repeatedConvertManyWritesSame : Obligations.RepeatedConvertManyWritesSame := by
  intro inOff outOff count s t hwf _ h ht
  obtain ⟨ws, output, hfits, hread, hwrite, rfl⟩ := exec_convertMany_completed h ht
  have hlen := (Memory.readRange_eq_values.1 hread).1
  have hfits' : fits inOff outOff count (s.setOutput output).advance :=
    (fits_setOutput (Memory.writeRange_len hwrite)).2 hfits
  obtain ⟨output', hwrite', hexec⟩ := exec_convertMany_of_values hfits' hread
  have hin : ws.map convert = [] ∨ outOff + (ws.map convert).length ≤ s.OUT.len := by
    obtain rfl | hne := eq_or_ne ws []
    · exact .inl rfl
    · have := List.length_pos_iff.2 hne
      simp only [List.length_map]
      exact .inr (by omega)
  cases hwrite'.symm.trans (Memory.writeRange_again hwf hwrite hin)
  exact hexec

/-- Settles O45: the scalar run appends the conversions of the words in order, which are the lanes of the bulk
command. -/
theorem bulkEqualsScalarRun : Obligations.BulkEqualsScalarRun := by
  intro inOff outOff count s t ws input output _ h ht hlen hwords
  subst hlen
  refine ⟨_, runSteps_convertOnes ws rfl rfl, ⟨rfl, by simp⟩, by simp, fun k v hv => ?_⟩
  obtain ⟨w, hget, rfl⟩ : ∃ w, ws[k]? = some w ∧ convert w = v := by simpa using hv
  obtain ⟨w', hw', hout⟩ := lane_of_completed (List.getElem?_eq_some_iff.1 hget).1 h ht
  cases hw'.symm.trans (hwords k w hget)
  exact hout

/-- Settles O49: the duties are the bounds check and the reads of a command that converts something. -/
theorem callerDutiesDecideCompletion : Obligations.CallerDutiesDecideCompletion := by
  intro inOff outOff count s hs hcount
  constructor
  · rintro ⟨hin, hvalues, hout⟩
    have hfits : fits inOff outOff count s := ⟨by omega, by omega⟩
    obtain ⟨_, hread⟩ := readRange_of_inputWritten hfits hvalues
    obtain ⟨_, -, hexec⟩ := exec_convertMany_of_values hfits hread
    exact ⟨_, hexec, hs⟩
  · rintro ⟨t, hexec, ht⟩
    obtain ⟨_, _, ⟨hin, hout⟩, -, -, -⟩ := exec_convertMany_completed hexec ht
    refine ⟨by omega, fun k hk => ?_, by omega⟩
    obtain ⟨w, hw, -⟩ := lane_of_completed hk hexec ht
    exact ⟨w, hw⟩

end Sys2Proof.Machine

/-! ### Digits and literals of the assembler (30_encoding.md R60) -/

namespace Sys2Proof.Machine

theorem toNat_digitChar : ∀ d < 16, (digitChar d).toNat = if d < 10 then 48 + d else 55 + d := by decide

/-- A printed digit is read back in every base that has it. -/
theorem digitValue_digitChar {base d : Nat} (hd : d < base) (hbase : base ≤ 16) :
    digitValue base (digitChar d) = some d := by
  have htoNat := toNat_digitChar d (by omega)
  simp only [digitValue, htoNat]
  by_cases hten : d < 10
  · have : 48 + d ≤ 57 := by omega
    simp [hten, this, hd]
  · have : ¬ 55 + d ≤ 57 := by omega
    have : 65 ≤ 55 + d := by omega
    have : 55 + d ≤ 70 := by omega
    simp [*]

/-- A character that is no digit is not printed for one. -/
theorem digitChar_ne {d : Nat} (hd : d < 16) {c : Char} (hc : digitValue 16 c = none) : digitChar d ≠ c := by
  rintro rfl
  cases (digitValue_digitChar hd le_rfl).symm.trans hc

theorem readDigits_cons {base acc d : Nat} {c : Char} (hc : digitValue base c = some d) (rest : List Char) :
    readDigits base acc (c :: rest) = readDigits base (acc * base + d) rest := by
  simp [readDigits, hc]

theorem readDigits_stop {base acc : Nat} {c : Char} (hc : digitValue base c = none) (rest : List Char) :
    readDigits base acc (c :: rest) = (acc, c :: rest) := by
  simp [readDigits, hc]

theorem readNumber_eq_readDigits {base d : Nat} {c : Char} (hc : digitValue base c = some d) (rest : List Char) :
    readNumber base (c :: rest) = some (readDigits base 0 (c :: rest)) := by
  simp [readNumber, readDigits_cons hc, hc]

/-- The decimal digits are at least one digit, before the text they are put before. -/
theorem decimalBefore_eq (text : List Char) (fuel n : Nat) :
    ∃ (d : Nat) (ds : List Nat), d < 10 ∧ (∀ e ∈ ds, e < 10) ∧
      decimalBefore text (fuel + 1) n = digitChar d :: (ds.map digitChar ++ text) := by
  induction fuel generalizing text n with
  | zero =>
    by_cases hn : n < 10
    · exact ⟨n, [], hn, by simp, by simp [decimalBefore, hn]⟩
    · exact ⟨n % 10, [], by omega, by simp, by simp [decimalBefore, hn]⟩
  | succ fuel ih =>
    rw [decimalBefore]
    by_cases hn : n < 10
    · exact ⟨n, [], hn, by simp, by simp [hn]⟩
    · obtain ⟨d, ds, hd, hds, heq⟩ := ih (digitChar (n % 10) :: text) (n / 10)
      refine ⟨d, ds ++ [n % 10], hd, fun e he => ?_, by simp [hn, heq]⟩
      obtain he | he := List.mem_append.1 he
      · exact hds e he
      · rw [List.mem_singleton.1 he]
        omega

theorem decimalBefore_append (text rest : List Char) (fuel n : Nat) :
    decimalBefore text fuel n ++ rest = decimalBefore (text ++ rest) fuel n := by
  induction fuel generalizing text n with
  | zero => rfl
  | succ fuel ih => by_cases hn : n < 10 <;> simp [decimalBefore, hn, ih]

/-- Reading the decimal digits of `n` is reading on with `n`. -/
theorem readDigits_decimalBefore (text : List Char) {fuel n : Nat} (hfuel : n < fuel) :
    readDigits 10 0 (decimalBefore text fuel n) = readDigits 10 n text := by
  induction fuel generalizing text n with
  | zero => omega
  | succ fuel ih =>
    rw [decimalBefore]
    by_cases hn : n < 10
    · rw [if_pos hn, readDigits_cons (digitValue_digitChar hn (by decide)), Nat.zero_mul, Nat.zero_add]
    · rw [if_neg hn, ih _ (by omega), readDigits_cons (digitValue_digitChar (by omega) (by decide)),
        Nat.div_add_mod']

theorem printDecimal_append (n : Nat) (rest : List Char) :
    printDecimal n ++ rest = decimalBefore rest (n + 1) n :=
  decimalBefore_append [] rest (n + 1) n

theorem isBlank_digitChar : ∀ d < 16, isBlank (digitChar d) = false := by decide

/-- A printed decimal number before a mark is read back. It does not begin with `0x`, since neither a digit nor the mark
is an `x`. -/
theorem readLiteral_printDecimal (n : Nat) {mark : Char} (hmark : digitValue 10 mark = none) (hx : 'x' ≠ mark)
    (rest : List Char) : readLiteral (printDecimal n ++ mark :: rest) = some (n, mark :: rest) := by
  rw [printDecimal_append]
  have hread : readDigits 10 0 (decimalBefore (mark :: rest) (n + 1) n) = (n, mark :: rest) := by
    rw [readDigits_decimalBefore _ (by omega), readDigits_stop hmark]
  obtain ⟨d, ds, hd, hds, heq⟩ := decimalBefore_eq (mark :: rest) n n
  rw [heq] at hread ⊢
  have hdecimal : dropWord ['0', 'x'] (digitChar d :: (ds.map digitChar ++ mark :: rest)) = none := by
    cases ds with
    | nil => simp [dropWord, hx]
    | cons e es =>
      have he := digitChar_ne (d := e) (c := 'x') (Nat.lt_trans (hds e (by simp)) (by decide)) (by decide)
      simp [dropWord, he.symm]
  simp only [readLiteral, skipBlanks_cons (isBlank_digitChar d (by omega)), hdecimal]
  rw [readNumber_eq_readDigits (digitValue_digitChar hd (by decide)), hread]

theorem readLiteral_space (text : List Char) : readLiteral (' ' :: text) = readLiteral text := rfl

/-- The 8 hexadecimal digits of a word before a character that is no digit are read back. -/
theorem readNumber_printHex32 (x : Bits32) {mark : Char} (hmark : digitValue 16 mark = none) (rest : List Char) :
    readNumber 16 (printHex32 x ++ mark :: rest) = some (x.toNat, mark :: rest) := by
  have hdigit (k : Nat) : digitValue 16 (digitChar ((x >>> k).toNat % 16)) = some ((x >>> k).toNat % 16) :=
    digitValue_digitChar (Nat.mod_lt _ (by decide)) le_rfl
  have hx := x.isLt
  simp only [printHex32, List.map_cons, List.map_nil, List.cons_append, List.nil_append]
  rw [readNumber_eq_readDigits (hdigit 28)]
  simp only [readDigits_cons (hdigit _), readDigits_stop hmark]
  simp only [BitVec.toNat_ushiftRight, Nat.shiftRight_eq_div_pow]
  congr 2
  omega

theorem readLiteral_printHex32 (x : Bits32) {mark : Char} (hmark : digitValue 16 mark = none) (rest : List Char) :
    readLiteral ('0' :: 'x' :: (printHex32 x ++ mark :: rest)) = some (x.toNat, mark :: rest) :=
  readNumber_printHex32 x hmark rest

end Sys2Proof.Machine

/-! ### Printed commands are read back (30_encoding.md R60) -/

namespace Sys2Proof.Machine

theorem expectChar_cons {c : Char} (hc : isBlank c = false) (text : List Char) :
    expectChar c (c :: text) = some text := by
  simp [expectChar, skipBlanks_cons hc, dropWord]

theorem skipBlanks_eq_nil {text : List Char} (h : ∀ c ∈ text, isBlank c = true) : skipBlanks text = [] := by
  simpa [skipBlanks] using skipBlanks_append h []

/-- The command reader takes a printed command and any blanks after it. -/
theorem readCommand_printInstr (i : Instr) {after : List Char} (h : ∀ c ∈ after, isBlank c = true) :
    readCommand (printInstr i ++ after) = some i := by
  have hafter := skipBlanks_eq_nil h
  cases i with
  | convertOne bits32 =>
    have hword : printInstr (.convertOne bits32) ++ after =
        convertOneWord ++ '(' :: '0' :: 'x' :: (printHex32 bits32 ++ ')' :: after) := by simp [printInstr]
    have hlit := readLiteral_printHex32 bits32 (mark := ')') (by decide) after
    rw [hword, readCommand, dropWord_append]
    simp [readConvertOne, expectChar_cons (c := '(') (by decide), hlit, expectChar_cons (c := ')') (by decide),
      hafter, bits32.isLt]
  | convertMany inOff outOff count =>
    have hword : printInstr (.convertMany inOff outOff count) ++ after =
        convertManyWord ++ '(' :: (printDecimal inOff ++ ',' :: ' ' :: (printDecimal outOff ++ ',' :: ' ' ::
          (printDecimal count ++ ')' :: after))) := by simp [printInstr]
    have hother (text : List Char) : dropWord convertOneWord (convertManyWord ++ text) = none := rfl
    have hcomma (n : Nat) := readLiteral_printDecimal n (mark := ',') (by decide) (by decide)
    have hparen (n : Nat) := readLiteral_printDecimal n (mark := ')') (by decide) (by decide)
    rw [hword, readCommand, hother, dropWord_append]
    simp [readConvertMany, expectChar_cons (c := '(') (by decide), expectChar_cons (c := ',') (by decide),
      expectChar_cons (c := ')') (by decide), readLiteral_space, hcomma, hparen, hafter]

/-- A character that is no digit and stands in none of the words and marks is in no printed command. -/
theorem not_mem_printInstr {c : Char} (hdigit : digitValue 16 c = none)
    (hword : c ∉ convertOneWord ++ convertManyWord ++ ['(', '0', 'x', ',', ' ', ')']) (i : Instr) :
    c ∉ printInstr i := by
  simp only [List.mem_append, not_or, List.mem_cons, List.not_mem_nil, not_false_eq_true, and_true] at hword
  have hhex (x : Bits32) : c ∉ printHex32 x := by
    simp only [printHex32, List.mem_map, not_exists, not_and]
    exact fun _ _ => digitChar_ne (Nat.mod_lt _ (by decide)) hdigit
  have hdecimal (n : Nat) : c ∉ printDecimal n := by
    obtain ⟨d, ds, hd, hds, heq⟩ := decimalBefore_eq [] n n
    simp only [printDecimal, heq, List.append_nil, List.mem_cons, List.mem_map, not_or, not_exists, not_and]
    exact ⟨(digitChar_ne (by omega) hdigit).symm, fun e he =>
      digitChar_ne (Nat.lt_trans (hds e he) (by decide)) hdigit⟩
  cases i with
  | convertOne bits32 => simp [printInstr, hword, hhex]
  | convertMany inOff outOff count => simp [printInstr, hword, hdecimal]

theorem comment_not_mem_printInstr (i : Instr) : '#' ∉ printInstr i := not_mem_printInstr (by decide) (by decide) i

theorem lineBreak_not_mem_printInstr (i : Instr) : '\n' ∉ printInstr i :=
  not_mem_printInstr (by decide) (by decide) i

theorem comment_not_mem_blanks {text : List Char} (h : ∀ c ∈ text, isBlank c = true) : '#' ∉ text := fun hmem =>
  absurd (h '#' hmem) (by decide)

theorem stripComment_eq_self {text : List Char} (h : '#' ∉ text) : stripComment text = text := by
  simpa [stripComment] using stripComment_append h []

/-- A printed command begins with a `c`. -/
theorem skipBlanks_printInstr (i : Instr) (text : List Char) :
    skipBlanks (printInstr i ++ text) = printInstr i ++ text := by
  cases i <;> rfl

theorem parseLine_of_readCommand {line text : List Char} {i : Instr} (hline : skipBlanks (stripComment line) = text)
    (h : readCommand text = some i) : parseLine line = .command i := by
  unfold parseLine
  rw [hline]
  cases text with
  | nil => cases h
  | cons c rest => simp [h]

/-- Settles O6: the comment and the blanks before go away, and the reader takes the printed command and the blanks
after it. -/
theorem assemblerReadsPrintedCommand : Obligations.AssemblerReadsPrintedCommand := by
  intro i before after comment hbefore hafter
  have hmark : '#' ∉ before ++ printInstr i ++ after := by
    simp [comment_not_mem_blanks hbefore, comment_not_mem_blanks hafter, comment_not_mem_printInstr]
  have hblanks : skipBlanks (before ++ printInstr i ++ after) = printInstr i ++ after := by
    rw [List.append_assoc, skipBlanks_append hbefore, skipBlanks_printInstr]
  have hread := readCommand_printInstr i hafter
  constructor
  · exact parseLine_of_readCommand (by rw [stripComment_eq_self hmark, hblanks]) hread
  · exact parseLine_of_readCommand
      (by rw [stripComment_append hmark, stripComment_comment, List.append_nil, hblanks]) hread

theorem parseLine_printInstr (i : Instr) : parseLine (printInstr i) = .command i := by
  simpa using (assemblerReadsPrintedCommand i [] [] [] (by simp) (by simp)).1

theorem splitLines_ne_nil (text : List Char) : splitLines text ≠ [] := by
  cases text with
  | nil => simp [splitLines]
  | cons c rest =>
    rw [splitLines]
    split
    · simp
    · split_ifs <;> simp

/-- A text that begins with a line and its line break splits into that line and the lines of the rest. -/
theorem splitLines_append {line : List Char} (h : '\n' ∉ line) (text : List Char) :
    splitLines (line ++ '\n' :: text) = line :: splitLines text := by
  induction line with
  | nil =>
    obtain ⟨first, lines, heq⟩ := List.exists_cons_of_ne_nil (splitLines_ne_nil text)
    simp [splitLines, heq]
  | cons c line ih =>
    obtain ⟨hc, hline⟩ : '\n' ≠ c ∧ '\n' ∉ line := by simpa [not_or] using h
    simp [splitLines, ih hline, hc.symm]

theorem assembleLines_command {line : List Char} {i : Instr} (h : parseLine line = .command i)
    (lines : List (List Char)) :
    assembleLines (line :: lines) = (assembleLines lines).map (encode i :: ·) := by
  rw [assembleLines, h]
  cases assembleLines lines <;> rfl

/-- Settles O7: by induction on the commands, each of which is one line of the text; the last line is empty. -/
theorem assembledTextIsProgram : Obligations.AssembledTextIsProgram := by
  intro is
  unfold assemble
  induction is with
  | nil => rfl
  | cons i is ih =>
    rw [List.flatMap_cons, List.append_assoc, List.singleton_append,
      splitLines_append (lineBreak_not_mem_printInstr i), assembleLines_command (parseLine_printInstr i), ih]
    rfl

end Sys2Proof.Machine

/-! ### Magnitudes and classes (30_encoding.md R55, R57, 40_convert_one.md R72, R73, R84) -/

namespace Sys2Proof.Machine

/-- The magnitude bits are the exponent field above the mantissa (R49). -/
theorem toNat_fp32Magnitude (x : Bits32) :
    (fp32Magnitude x).toNat = rawExponent x * 2 ^ 23 + (fp32Mantissa x).toNat := by
  simp only [fp32Magnitude, rawExponent, fp32Exponent, fp32Mantissa, BitVec.extractLsb'_toNat,
    Nat.shiftRight_eq_div_pow]
  omega

theorem toNat_fp16Magnitude (y : Bits16) :
    (fp16Magnitude y).toNat = (fp16Exponent y).toNat * 2 ^ 10 + (fp16Mantissa y).toNat := by
  simp only [fp16Magnitude, fp16Exponent, fp16Mantissa, BitVec.extractLsb'_toNat, Nat.shiftRight_eq_div_pow]
  omega

/-- The kept mantissa bits are the mantissa without its low 13 bits (R68). -/
theorem toNat_keptMantissa (x : Bits32) : (x.extractLsb' 13 10).toNat = (fp32Mantissa x).toNat / 2 ^ 13 := by
  simp only [fp32Mantissa, BitVec.extractLsb'_toNat, Nat.shiftRight_eq_div_pow]
  omega

/-- The three fields determine a result word. -/
theorem assembleResult_fields (y : Bits16) :
    assembleResult (fp16Sign y) (fp16Exponent y) (fp16Mantissa y) = y := by
  rw [assembleResult_eq_append, fp16Sign, fp16Exponent, fp16Mantissa,
    BitVec.extractLsb'_append_extractLsb'_eq_extractLsb' (by decide : 15 = 10 + 5),
    BitVec.extractLsb'_append_extractLsb'_eq_extractLsb' (by decide : 10 = 0 + 10)]
  exact BitVec.extractLsb'_eq_self

theorem fp16Exponent_convert_of_zero {x : Bits32} (h : classOf x = .zero) : fp16Exponent (convert x) = 0#5 := by
  rw [convert_eq_assembleResult_of_zero h, fp16Exponent_assembleResult]

theorem fp16Exponent_convert_of_clip {x : Bits32} (h : classOf x = .clip) : fp16Exponent (convert x) = 31#5 := by
  rw [convert_eq_assembleResult_of_clip h, fp16Exponent_assembleResult]

/-- R71: the rebias of the normal class, on the fields. -/
theorem toNat_fp16Exponent_add {x : Bits32} (h : classOf x = .normal) :
    (fp16Exponent (convert x)).toNat + 112 = rawExponent x := by
  have hexp := toNat_fp16Exponent_of_normal h
  rw [adjustedExponent_eq] at hexp
  omega

theorem toNat_fp16Mantissa_of_normal {x : Bits32} (h : classOf x = .normal) :
    (fp16Mantissa (convert x)).toNat = (fp32Mantissa x).toNat / 2 ^ 13 := by
  rw [convert_eq_assembleResult_of_normal h, fp16Mantissa_assembleResult, toNat_keptMantissa]

/-- R57: the classes by the magnitude bits. -/
theorem classOf_eq_zero_iff_magnitude {x : Bits32} : classOf x = .zero ↔ (fp32Magnitude x).toNat ≤ 0x387FFFFF := by
  have hmant := (fp32Mantissa x).isLt
  rw [classOf_eq_zero, toNat_fp32Magnitude]
  omega

theorem classOf_eq_clip_iff_magnitude {x : Bits32} : classOf x = .clip ↔ 0x47800000 ≤ (fp32Magnitude x).toNat := by
  have hmant := (fp32Mantissa x).isLt
  rw [classOf_eq_clip, toNat_fp32Magnitude]
  omega

theorem classOf_eq_normal_iff_magnitude {x : Bits32} :
    classOf x = .normal ↔ 0x38800000 ≤ (fp32Magnitude x).toNat ∧ (fp32Magnitude x).toNat ≤ 0x477FFFFF := by
  have hmant := (fp32Mantissa x).isLt
  rw [classOf_eq_normal, toNat_fp32Magnitude]
  omega

theorem toNat_fp16Magnitude_of_zero {x : Bits32} (h : classOf x = .zero) : (fp16Magnitude (convert x)).toNat = 0 := by
  rw [toNat_fp16Magnitude, fp16Exponent_convert_of_zero h, fp16Mantissa_convert_of_zero h]
  rfl

theorem toNat_fp16Magnitude_of_clip {x : Bits32} (h : classOf x = .clip) :
    (fp16Magnitude (convert x)).toNat = 31 * 2 ^ 10 := by
  rw [toNat_fp16Magnitude, fp16Exponent_convert_of_clip h, fp16Mantissa_convert_of_clip h]
  rfl

/-- In the normal class the conversion shifts the magnitude bits right by 13 and takes the rebias off the exponent. -/
theorem toNat_fp16Magnitude_of_normal {x : Bits32} (h : classOf x = .normal) :
    (fp16Magnitude (convert x)).toNat + 112 * 2 ^ 10 = (fp32Magnitude x).toNat / 2 ^ 13 := by
  have hexp := toNat_fp16Exponent_add h
  rw [toNat_fp16Magnitude, toNat_fp16Mantissa_of_normal h, toNat_fp32Magnitude]
  omega

theorem getLsbD_signMask : ∀ i < 32, (0x80000000#32).getLsbD i = decide (i = 31) := by decide

/-- The sign bit is no part of what the class and the other fields are taken from. -/
theorem extractLsb'_xor_sign {x : Bits32} {start len : Nat} (h : start + len ≤ 31) :
    (x ^^^ 0x80000000#32).extractLsb' start len = x.extractLsb' start len := by
  ext i hi
  have hne : start + i ≠ 31 := by omega
  simp [getLsbD_signMask (start + i) (by omega), hne]

theorem fp32Sign_xor_sign (x : Bits32) : fp32Sign (x ^^^ 0x80000000#32) = ~~~fp32Sign x := by
  ext i hi
  obtain rfl : i = 0 := by omega
  simp [fp32Sign]

/-- R72 and R73: the gate-level tests on the raw exponent are those of the classes. -/
theorem gateZero_iff {x : Bits32} : gateZero x = true ↔ classOf x = .zero := by
  rw [classOf_eq_zero, gateZero, BitVec.ule_eq_decide, decide_eq_true_iff]
  rfl

theorem gateClip_iff {x : Bits32} : gateClip x = true ↔ classOf x = .clip := by
  rw [classOf_eq_clip, gateClip, BitVec.ule_eq_decide, decide_eq_true_iff]
  rfl

theorem toNat_gateExponent (x : Bits32) :
    (gateExponent x).toNat = (1 - rawExponent x / 16 % 2) * 16 + rawExponent x % 16 := by
  simp only [gateExponent, BitVec.toNat_append, BitVec.toNat_not, BitVec.extractLsb'_toNat,
    Nat.shiftRight_eq_div_pow]
  rw [← Nat.shiftLeft_add_eq_or_of_lt (by omega), Nat.shiftLeft_eq]
  simp only [rawExponent]
  omega

/-- R73: from 113 to 142, inverting bit 4 of the raw exponent subtracts 112. -/
theorem gateExponent_of_normal {x : Bits32} (h : classOf x = .normal) :
    gateExponent x = BitVec.ofInt 5 (adjustedExponent x) := by
  obtain ⟨hlo, hhi⟩ := classOf_eq_normal.1 h
  have hexp := toNat_fp16Exponent_add h
  rw [convert_eq_assembleResult_of_normal h, fp16Exponent_assembleResult] at hexp
  apply BitVec.eq_of_toNat_eq
  rw [toNat_gateExponent]
  omega

theorem assembleResult_not_sign (s : BitVec 1) (e : BitVec 5) (m : BitVec 10) :
    assembleResult (~~~s) e m = assembleResult s e m ^^^ 0x8000#16 := by
  have hmask : 0x8000#16 = 1#1 ++ 0#5 ++ 0#10 := rfl
  have hnot : ~~~s = s ^^^ 1#1 := (BitVec.xor_allOnes (x := s)).symm
  rw [assembleResult_eq_append, assembleResult_eq_append, hmask, BitVec.xor_append, BitVec.xor_append, hnot,
    BitVec.xor_zero, BitVec.xor_zero]

/-- Inputs that agree on exponent and kept mantissa give results that agree on all but the sign. -/
theorem convert_eq_of_fields {x x' : Bits32} (hexp : fp32Exponent x' = fp32Exponent x)
    (hmant : x'.extractLsb' 13 10 = x.extractLsb' 13 10) :
    convert x' = assembleResult (fp32Sign x') (fp16Exponent (convert x)) (fp16Mantissa (convert x)) := by
  have hadj : adjustedExponent x' = adjustedExponent x := by rw [adjustedExponent, rawExponent, hexp]; rfl
  have hclass : classOf x' = classOf x := by rw [classOf, hadj]; rfl
  cases h : classOf x with
  | zero => simp [convert_eq_assembleResult_of_zero, h, hclass]
  | clip => simp [convert_eq_assembleResult_of_clip, h, hclass]
  | normal => simp [convert_eq_assembleResult_of_normal, h, hclass, hadj, hmant]

/-- Settles O16: `adj`, the raw exponent and the magnitude bits order the inputs in one way. -/
theorem classTableAgrees : Obligations.ClassTableAgrees := fun _ =>
  ⟨⟨classOf_eq_zero.trans adjustedExponent_le_clipLo.symm, classOf_eq_zero, classOf_eq_zero_iff_magnitude⟩,
    ⟨classOf_eq_normal.trans adjustedExponent_normal.symm, classOf_eq_normal, classOf_eq_normal_iff_magnitude⟩,
    classOf_eq_clip.trans adjustedExponent_ge_clipHi.symm, classOf_eq_clip, classOf_eq_clip_iff_magnitude⟩

/-- Settles O17: the gate-level tests select the class, and each class assembles the same fields. -/
theorem gateLevelRealisationAgrees : Obligations.GateLevelRealisationAgrees := by
  intro x
  rw [convertGate]
  cases h : classOf x with
  | zero => simp [gateZero_iff, h, convert_eq_assembleResult_of_zero h]
  | clip => simp [gateZero_iff, gateClip_iff, h, convert_eq_assembleResult_of_clip h]
  | normal =>
    simp [gateZero_iff, gateClip_iff, h, gateExponent_of_normal h, convert_eq_assembleResult_of_normal h]

/-- The input word with the given fields, whose 13 discarded bits are 0. -/
def inputOfFields (s : BitVec 1) (e : BitVec 8) (m : BitVec 10) : Bits32 := s ++ e ++ m ++ 0#13

@[simp] theorem fp32Sign_inputOfFields (s : BitVec 1) (e : BitVec 8) (m : BitVec 10) :
    fp32Sign (inputOfFields s e m) = s := by
  rw [fp32Sign, inputOfFields, BitVec.extractLsb'_append_eq_of_le (by decide),
    BitVec.extractLsb'_append_eq_of_le (by decide)]
  exact BitVec.extractLsb'_append_eq_left

@[simp] theorem rawExponent_inputOfFields (s : BitVec 1) (e : BitVec 8) (m : BitVec 10) :
    rawExponent (inputOfFields s e m) = e.toNat := by
  rw [rawExponent, fp32Exponent, inputOfFields, BitVec.extractLsb'_append_eq_of_le (by decide),
    BitVec.extractLsb'_append_eq_of_le (by decide)]
  exact congrArg BitVec.toNat BitVec.extractLsb'_append_eq_right

@[simp] theorem extractLsb'_inputOfFields (s : BitVec 1) (e : BitVec 8) (m : BitVec 10) :
    (inputOfFields s e m).extractLsb' 13 10 = m := by
  rw [inputOfFields, BitVec.extractLsb'_append_eq_of_le (by decide)]
  exact BitVec.extractLsb'_append_eq_right

/-- Settles O18: a result has the exponent field of its class, and each listed word is the result of an input with its
fields, the rebias put back. -/
theorem outputPatternsProduced : Obligations.OutputPatternsProduced := by
  intro y
  constructor
  · rintro ⟨x, rfl⟩
    cases h : classOf x with
    | zero => exact .inl ⟨fp16Exponent_convert_of_zero h, fp16Mantissa_convert_of_zero h⟩
    | clip => exact .inr (.inr ⟨fp16Exponent_convert_of_clip h, fp16Mantissa_convert_of_clip h⟩)
    | normal =>
      have hexp := toNat_fp16Exponent_add h
      have hraw := classOf_eq_normal.1 h
      exact .inr (.inl (by omega))
  · have hy := assembleResult_fields y
    rintro (⟨hexp, hmant⟩ | ⟨hlo, hhi⟩ | ⟨hexp, hmant⟩)
    · refine ⟨inputOfFields (fp16Sign y) 0#8 0#10, ?_⟩
      rw [convert_eq_assembleResult_of_zero (classOf_eq_zero.2 (by simp)), fp32Sign_inputOfFields, ← hexp, ← hmant, hy]
    · have hsum : ((fp16Exponent y).setWidth 8 + 112#8).toNat = (fp16Exponent y).toNat + 112 := by
        simp only [BitVec.toNat_add, BitVec.toNat_setWidth, BitVec.toNat_ofNat]
        omega
      have hclass : classOf (inputOfFields (fp16Sign y) ((fp16Exponent y).setWidth 8 + 112#8) (fp16Mantissa y)) =
          .normal := classOf_eq_normal.2 (by rw [rawExponent_inputOfFields, hsum]; omega)
      refine ⟨_, (convert_eq_assembleResult_of_normal hclass).trans ?_⟩
      simp [adjustedExponent_eq, hsum, hy]
    · refine ⟨inputOfFields (fp16Sign y) 255#8 0#10, ?_⟩
      rw [convert_eq_assembleResult_of_clip (classOf_eq_clip.2 (by simp)), fp32Sign_inputOfFields, ← hexp, ← hmant, hy]

/-- Settles O22: the flip leaves all fields but the sign. -/
theorem signSymmetry : Obligations.SignSymmetry := by
  intro x
  rw [convert_eq_of_fields (extractLsb'_xor_sign (by decide)) (extractLsb'_xor_sign (by decide)), fp32Sign_xor_sign,
    assembleResult_not_sign, ← fp16Sign_convert, assembleResult_fields]

/-- Settles O23: the three classes follow each other in magnitude, and in the normal class the conversion is a shift and
a subtraction. -/
theorem monotoneInMagnitude : Obligations.MonotoneInMagnitude := by
  intro x x' _ hle
  cases h : classOf x with
  | zero =>
    rw [toNat_fp16Magnitude_of_zero h]
    exact Nat.zero_le _
  | clip =>
    have h' : classOf x' = .clip := classOf_eq_clip_iff_magnitude.2 ((classOf_eq_clip_iff_magnitude.1 h).trans hle)
    rw [toNat_fp16Magnitude_of_clip h, toNat_fp16Magnitude_of_clip h']
  | normal =>
    have hmag := toNat_fp16Magnitude_of_normal h
    obtain ⟨hlo, hhi⟩ := classOf_eq_normal_iff_magnitude.1 h
    cases h' : classOf x' with
    | zero =>
      have := classOf_eq_zero_iff_magnitude.1 h'
      omega
    | clip =>
      rw [toNat_fp16Magnitude_of_clip h']
      omega
    | normal =>
      have := toNat_fp16Magnitude_of_normal h'
      omega

/-- Settles O24: of the three classes only the clip class has exponent field 31, and only the zero class a magnitude of
0. -/
theorem infinityAndZeroThresholds : Obligations.InfinityAndZeroThresholds := by
  intro x
  rw [← classOf_eq_clip_iff_magnitude, ← classOf_eq_zero_iff_magnitude]
  cases h : classOf x with
  | zero =>
    have hmag : fp16Magnitude (convert x) = 0#15 := BitVec.eq_of_toNat_eq (toNat_fp16Magnitude_of_zero h)
    simp [fp16Exponent_convert_of_zero h, hmag]
  | clip =>
    have hmag := toNat_fp16Magnitude_of_clip h
    have hne : fp16Magnitude (convert x) ≠ 0#15 := fun hzero => by simp [hzero] at hmag
    simp [fp16Exponent_convert_of_clip h, fp16Mantissa_convert_of_clip h, hne]
  | normal =>
    have hexp := toNat_fp16Exponent_add h
    have hraw := classOf_eq_normal.1 h
    have hmag := toNat_fp16Magnitude (convert x)
    have hinf : fp16Exponent (convert x) ≠ 31#5 := by
      intro heq
      rw [heq, BitVec.toNat_ofNat] at hexp
      omega
    have hzero : fp16Magnitude (convert x) ≠ 0#15 := by
      intro heq
      rw [heq, BitVec.toNat_ofNat] at hmag
      omega
    simp [hinf, hzero]

end Sys2Proof.Machine

/-! ### The words read as numbers (40_convert_one.md R74 to R76) -/

namespace Sys2Proof.Machine

theorem abs_signFactor (s : BitVec 1) : |signFactor s| = 1 := by
  unfold signFactor
  split_ifs <;> simp

/-- The magnitude R74 gives to unbiased exponent `e` and mantissa `m` of `p` bits. -/
def normalMagnitude (p : Nat) (e : ℤ) (m : Nat) : ℚ := (2 : ℚ) ^ e * (1 + m / 2 ^ p)

theorem fp32Value_eq {x : Bits32} (h : rawExponent x ≠ 0) :
    fp32Value x =
      signFactor (fp32Sign x) * normalMagnitude 23 ((rawExponent x : ℤ) - 127) (fp32Mantissa x).toNat := by
  rw [fp32Value, if_neg h, normalMagnitude, mul_assoc]

theorem fp16Value_eq {y : Bits16} (h : (fp16Exponent y).toNat ≠ 0) :
    fp16Value y =
      signFactor (fp16Sign y) * normalMagnitude 10 (((fp16Exponent y).toNat : ℤ) - 15) (fp16Mantissa y).toNat := by
  rw [fp16Value, if_neg h, normalMagnitude, mul_assoc]

section

variable {p m m' : Nat} {e e' : ℤ}

theorem zpow_le_normalMagnitude : (2 : ℚ) ^ e ≤ normalMagnitude p e m := by
  unfold normalMagnitude
  exact le_mul_of_one_le_right (by positivity) (by simp; positivity)

theorem normalMagnitude_lt_zpow (hm : m < 2 ^ p) : normalMagnitude p e m < (2 : ℚ) ^ (e + 1) := by
  have hfrac : (m : ℚ) / 2 ^ p < 1 := (div_lt_one (by positivity)).2 (by exact_mod_cast hm)
  rw [zpow_add_one₀ (by norm_num), normalMagnitude]
  exact mul_lt_mul_of_pos_left (by linarith) (by positivity)

theorem normalMagnitude_pos : 0 < normalMagnitude p e m :=
  lt_of_lt_of_le (by positivity) zpow_le_normalMagnitude

/-- A magnitude below a power of 2, by its exponent. -/
theorem normalMagnitude_lt_zpow_iff (hm : m < 2 ^ p) {k : ℤ} : normalMagnitude p e m < (2 : ℚ) ^ k ↔ e < k := by
  constructor
  · intro h
    exact (zpow_lt_zpow_iff_right₀ (by norm_num : (1 : ℚ) < 2)).1 (zpow_le_normalMagnitude.trans_lt h)
  · intro h
    exact (normalMagnitude_lt_zpow hm).trans_le (zpow_le_zpow_right₀ (by norm_num) (by omega))

theorem normalMagnitude_le_of_same_exponent : normalMagnitude p e m ≤ normalMagnitude p e m' ↔ m ≤ m' := by
  unfold normalMagnitude
  rw [mul_le_mul_iff_right₀ (by positivity), add_le_add_iff_left, div_le_div_iff_of_pos_right (by positivity),
    Nat.cast_le]

/-- Magnitudes are ordered by exponent and then by mantissa. -/
theorem normalMagnitude_le_iff (hm : m < 2 ^ p) (hm' : m' < 2 ^ p) :
    normalMagnitude p e m ≤ normalMagnitude p e' m' ↔ e < e' ∨ (e = e' ∧ m ≤ m') := by
  obtain hlt | rfl | hgt := lt_trichotomy e e'
  · simp only [hlt, true_or, iff_true]
    exact ((normalMagnitude_lt_zpow_iff hm).2 hlt).le.trans zpow_le_normalMagnitude
  · simp [normalMagnitude_le_of_same_exponent]
  · have hlt := ((normalMagnitude_lt_zpow_iff hm').2 hgt).trans_le (zpow_le_normalMagnitude (p := p) (m := m))
    have hne : ¬ (e < e' ∨ (e = e' ∧ m ≤ m')) := by omega
    simp [hlt, hne]

/-- Mantissa bits appended at the low end, all 0, keep the magnitude. -/
theorem normalMagnitude_widen (n : Nat) : normalMagnitude (p + n) e (m * 2 ^ n) = normalMagnitude p e m := by
  unfold normalMagnitude
  rw [pow_add, Nat.cast_mul, Nat.cast_pow, Nat.cast_ofNat, mul_div_mul_right _ _ (by positivity)]

end

theorem abs_fp32Value {x : Bits32} (h : rawExponent x ≠ 0) :
    |fp32Value x| = normalMagnitude 23 ((rawExponent x : ℤ) - 127) (fp32Mantissa x).toNat := by
  rw [fp32Value_eq h, abs_mul, abs_signFactor, one_mul, abs_of_pos normalMagnitude_pos]

/-- A result word of exponent field 1 to 30 has the value of an FP32 word with 13 zero bits after its mantissa. -/
theorem abs_fp16Value {y : Bits16} (h : (fp16Exponent y).toNat ≠ 0) :
    |fp16Value y| =
      normalMagnitude 23 (((fp16Exponent y).toNat : ℤ) - 15) ((fp16Mantissa y).toNat * 2 ^ 13) := by
  rw [fp16Value_eq h, abs_mul, abs_signFactor, one_mul, abs_of_pos normalMagnitude_pos]
  exact (normalMagnitude_widen 13).symm

/-- The magnitude of a finite input below a power of 2 that is no subnormal, by its exponent. -/
theorem abs_fp32Value_lt_zpow_iff {x : Bits32} {k : ℤ} (hk : -126 ≤ k) :
    |fp32Value x| < (2 : ℚ) ^ k ↔ (rawExponent x : ℤ) < k + 127 := by
  by_cases h : rawExponent x = 0
  · have hmant : ((fp32Mantissa x).toNat : ℚ) / 2 ^ 23 < 1 :=
      (div_lt_one (by positivity)).2 (by exact_mod_cast (fp32Mantissa x).isLt)
    have hsub : |fp32Value x| < (2 : ℚ) ^ (-126 : ℤ) := by
      rw [fp32Value, if_pos h, abs_mul, abs_mul, abs_signFactor, one_mul, abs_of_pos (by positivity),
        abs_of_nonneg (by positivity)]
      exact mul_lt_of_lt_one_right (by positivity) hmant
    have hexp : (rawExponent x : ℤ) < k + 127 := by omega
    simp only [hexp, iff_true]
    exact hsub.trans_le (zpow_le_zpow_right₀ (by norm_num) hk)
  · rw [abs_fp32Value h, normalMagnitude_lt_zpow_iff (fp32Mantissa x).isLt]
    omega

/-- The significand truncated to 10 fraction bits (R74). -/
theorem floor_significand (m : Nat) : ⌊(1 + (m : ℚ) / 2 ^ 23) * 2 ^ 10⌋ = ((2 ^ 10 + m / 2 ^ 13 : Nat) : ℤ) := by
  have hshift : (1 + (m : ℚ) / 2 ^ 23) * 2 ^ 10 = ((2 ^ 23 + m : Nat) : ℚ) / ((2 ^ 13 : Nat) : ℚ) := by
    push_cast
    ring
  rw [hshift, Rat.floor_natCast_div_natCast]
  norm_cast
  omega

/-- Settles O25: the mantissa field of the result is the truncated fraction, and the rebias keeps the unbiased
exponent. -/
theorem normalValueIsTruncated : Obligations.NormalValueIsTruncated := by
  intro x h
  have hexp := toNat_fp16Exponent_add h
  obtain ⟨hlo, -⟩ := classOf_eq_normal.1 h
  have hunbiased : ((fp16Exponent (convert x)).toNat : ℤ) - 15 = (rawExponent x : ℤ) - 127 := by omega
  refine ⟨?_, hunbiased⟩
  rw [fp16Value_eq (by omega), fp16Sign_convert, hunbiased, toNat_fp16Mantissa_of_normal h, floor_significand,
    Int.cast_natCast, normalMagnitude, mul_assoc]
  push_cast
  ring

/-- The input words from 65504 up to 65536 give the largest finite result (R75). -/
theorem convert_eq_largest {x : Bits32} (hlo : 65504 ≤ fp32Value x) (hhi : fp32Value x < 65536) :
    convert x = 0x7BFF#16 := by
  have habs : |fp32Value x| = fp32Value x := abs_of_pos (by linarith)
  have hexp : rawExponent x = 142 := by
    have hge : ¬ |fp32Value x| < (2 : ℚ) ^ (15 : ℤ) := by
      rw [habs, not_lt]
      exact le_trans (by norm_num) hlo
    have hlt : |fp32Value x| < (2 : ℚ) ^ (16 : ℤ) := by
      rw [habs]
      exact hhi.trans_le (by norm_num)
    rw [abs_fp32Value_lt_zpow_iff (by decide)] at hge hlt
    omega
  have hsign : fp32Sign x = 0#1 := by
    refine (BitVec.eq_zero_or_eq_one _).resolve_right fun hneg => ?_
    have hval := fp32Value_eq (x := x) (by omega)
    rw [hneg, signFactor, if_pos rfl, neg_one_mul] at hval
    have hpos := normalMagnitude_pos (p := 23) (e := (rawExponent x : ℤ) - 127) (m := (fp32Mantissa x).toNat)
    linarith
  have hmant : (fp32Mantissa x).toNat / 2 ^ 13 = 1023 := by
    have hval : |fp32Value x| = normalMagnitude 23 15 (fp32Mantissa x).toNat := by
      rw [abs_fp32Value (by omega), hexp]
      rfl
    have hle : normalMagnitude 23 15 (1023 * 2 ^ 13) ≤ normalMagnitude 23 15 (fp32Mantissa x).toNat := by
      rw [← hval, habs, normalMagnitude]
      norm_num
      linarith
    have := normalMagnitude_le_of_same_exponent.1 hle
    have := (fp32Mantissa x).isLt
    omega
  have hkept : x.extractLsb' 13 10 = 1023#10 := BitVec.eq_of_toNat_eq ((toNat_keptMantissa x).trans hmant)
  rw [convert_eq_assembleResult_of_normal (classOf_eq_normal.2 (by omega)), hsign, adjustedExponent_eq, hexp, hkept]
  rfl

/-- Settles O26: the classes begin at raw exponents 113 and 143, that is at 2^-14 and 2^16. -/
theorem classesByMagnitudeOfValue : Obligations.ClassesByMagnitudeOfValue := by
  intro x _
  have hzero := abs_fp32Value_lt_zpow_iff (x := x) (k := -14) (by decide)
  have hclip := abs_fp32Value_lt_zpow_iff (x := x) (k := 16) (by decide)
  rw [show (2 : ℚ) ^ (16 : ℤ) = 2 ^ 16 by norm_cast] at hclip
  refine ⟨?_, ?_, ?_, convert_eq_largest⟩
  · rw [classOf_eq_zero, hzero]
    omega
  · rw [classOf_eq_normal, ← not_lt (a := |fp32Value x|), hzero, hclip]
    omega
  · rw [classOf_eq_clip, ← not_lt (a := |fp32Value x|), hclip]
    omega

/-- Settles O27: with the exponents rebiased, the words of exponent field 1 to 30 are the FP32 words whose last 13 bits
are 0; the result is the largest of them up to the input. -/
theorem normalOutputIsNearestBelow : Obligations.NormalOutputIsNearestBelow := by
  intro x h
  have hexp := toNat_fp16Exponent_add h
  obtain ⟨hlo, -⟩ := classOf_eq_normal.1 h
  have hmant := (fp32Mantissa x).isLt
  have hwide (y : Bits16) : (fp16Mantissa y).toNat * 2 ^ 13 < 2 ^ 23 := by
    have := (fp16Mantissa y).isLt
    omega
  have hout := hwide (convert x)
  rw [abs_fp16Value (by omega), abs_fp32Value (by omega), normalMagnitude_le_iff hout hmant]
  rw [toNat_fp16Mantissa_of_normal h] at hout ⊢
  refine ⟨.inr ⟨by omega, Nat.div_mul_le_self _ _⟩, fun y hy _ hle => ?_⟩
  rw [abs_fp16Value (by omega)] at hle ⊢
  rw [normalMagnitude_le_iff (hwide y) hmant] at hle
  rw [normalMagnitude_le_iff (hwide y) hout]
  omega

end Sys2Proof.Machine

/-! ### The bytes of an element (20_memory.md R37) -/

namespace Sys2Proof.Machine

theorem setWidth_ushiftRight {w : Nat} (v : BitVec w) (k : Nat) : (v >>> k).setWidth 8 = v.extractLsb' k 8 := by
  ext i hi
  simp

/-- The first `n` bytes of an element determine its first `8 * n` bits. -/
theorem getLsbD_eq_of_littleBytes {w n : Nat} {v v' : BitVec w} (h : littleBytes v n = littleBytes v' n) {i : Nat}
    (hi : i < 8 * n) : v.getLsbD i = v'.getLsbD i := by
  induction n generalizing v v' i with
  | zero => omega
  | succ n ih =>
    obtain ⟨hbyte, hrest⟩ := List.cons.inj h
    by_cases hlow : i < 8
    · simpa [hlow] using congrArg (BitVec.getLsbD · i) hbyte
    · have hshift := ih hrest (i := i - 8) (by omega)
      rwa [BitVec.getLsbD_ushiftRight, BitVec.getLsbD_ushiftRight, Nat.add_sub_cancel' (by omega)] at hshift

/-- An element of whole bytes is determined by them, in either order. -/
theorem elementBytes_injective {w : Nat} (hw : 8 ∣ w) {order : ByteOrder} {v v' : BitVec w}
    (h : elementBytes order v = elementBytes order v') : v = v' := by
  have hbytes : littleBytes v (w / 8) = littleBytes v' (w / 8) := by
    cases order with
    | little => exact h
    | big => exact List.reverse_injective h
  exact BitVec.eq_of_getLsbD_eq fun i hi => getLsbD_eq_of_littleBytes hbytes (by omega)

theorem elementBytes_little32 (v : Bits32) :
    elementBytes .little v = [v.extractLsb' 0 8, v.extractLsb' 8 8, v.extractLsb' 16 8, v.extractLsb' 24 8] := by
  simp [elementBytes, littleBytes, ← setWidth_ushiftRight, ← BitVec.shiftRight_add]

theorem elementBytes_little16 (v : Bits16) : elementBytes .little v = [v.extractLsb' 0 8, v.extractLsb' 8 8] := by
  simp [elementBytes, littleBytes, ← setWidth_ushiftRight]

theorem elementBytes_big {w : Nat} (v : BitVec w) : elementBytes .big v = (elementBytes .little v).reverse := rfl

/-- Settles O54: each byte is 8 bits of the element, and the bytes cover all of them; the big order is the reverse. -/
theorem elementBytesDetermineElement : Obligations.ElementBytesDetermineElement := by
  refine ⟨fun order => ⟨fun v v' => elementBytes_injective (by decide), fun v v' => elementBytes_injective (by decide)⟩,
    fun v => ⟨elementBytes_little32 v, ?_⟩, fun v => ⟨elementBytes_little16 v, ?_⟩⟩
  · rw [elementBytes_big, elementBytes_little32]
    rfl
  · rw [elementBytes_big, elementBytes_little16]
    rfl

end Sys2Proof.Machine

/-! ### Elements that hold a value, and what a merge leaves of one agent's writes (20_memory.md R43) -/

namespace Sys2Proof.Machine

section

variable {w : Nat} {m e : Memory w} {j : Nat}

/-- Element `j` is written. -/
def Memory.holds (m : Memory w) (j : Nat) : Prop := ∃ v, m.read j = .value v

theorem Memory.lookup_of_read {v : BitVec w} (h : m.read j = .value v) : Memory.lookup j m.cells = some v := by
  unfold Memory.read at h
  split_ifs at h
  cases hl : Memory.lookup j m.cells with
  | none => simp [hl] at h
  | some u => simpa [hl] using h

theorem Memory.lt_len_of_holds (h : m.holds j) : j < m.len := by
  obtain ⟨v, hv⟩ := h
  by_contra hout
  cases hv.symm.trans (Memory.read_eq_outside.2 (not_lt.1 hout))

/-- In the canonical form an element is written exactly where it is listed. -/
theorem Memory.holds_iff_isSome (hm : m.wf) : m.holds j ↔ (Memory.lookup j m.cells).isSome = true := by
  constructor
  · rintro ⟨v, hv⟩
    rw [Memory.lookup_of_read hv, Option.isSome_some]
  · intro h
    obtain ⟨v, hv⟩ := Option.isSome_iff_exists.1 h
    have hj : j < m.len := hm.2 _ ((Memory.mem_cells_iff hm.1).2 hv)
    exact ⟨v, by simp [Memory.read, hj, hv]⟩

theorem Memory.lookup_eq_none_of_not_holds (hm : m.wf) (h : ¬ m.holds j) : Memory.lookup j m.cells = none := by
  simpa [Memory.holds_iff_isSome hm] using h

theorem Memory.unwritten_not_holds (len : Nat) : ¬ (Memory.unwritten w len).holds j := by
  rw [Memory.holds_iff_isSome (Memory.unwritten_wf w len)]
  exact Bool.false_ne_true

theorem overlayRead_of_read {v : BitVec w} (h : e.read j = .value v) : overlayRead e m j = .value v := by
  simp [overlayRead, Memory.lookup_of_read h]

theorem overlayRead_of_not_holds (he : e.wf) (h : ¬ e.holds j) : overlayRead e m j = m.read j := by
  simp [overlayRead, Memory.lookup_eq_none_of_not_holds he h]

/-- After any writes an element is written that was written before or that a write inside the buffer names. -/
theorem Memory.writeAll_holds {cells : List (Nat × BitVec w)} (h : m.holds j ∨ j < m.len ∧ ∃ v, (j, v) ∈ cells) :
    (m.writeAll cells).holds j := by
  induction cells generalizing m with
  | nil => simpa [Memory.writeAll] using h
  | cons c cells ih =>
    rw [Memory.writeAll]
    split
    · rename_i m' hwrite
      refine ih ?_
      by_cases hc : c.1 = j
      · subst hc
        exact .inl ⟨c.2, Memory.read_write_same hwrite⟩
      · rw [Memory.holds, Memory.read_write_other hwrite (Ne.symm hc), Memory.write_len hwrite]
        refine h.imp_right fun ⟨hj, v, hv⟩ => ⟨hj, v, (List.mem_cons.1 hv).resolve_left ?_⟩
        rintro rfl
        exact hc rfl
    · rename_i hwrite
      refine ih (h.imp_right fun ⟨hj, v, hv⟩ => ⟨hj, v, (List.mem_cons.1 hv).resolve_left ?_⟩)
      rintro rfl
      simp [Memory.write, hj] at hwrite

end

/-- At most one agent wrote an element exactly where no two did. -/
theorem writerCount_le_one_iff {effects : List (Memory 16)} (hwf : ∀ e ∈ effects, e.wf) {j : Nat} :
    writerCount effects j ≤ 1 ↔ effects.Pairwise fun e f => ¬ (e.holds j ∧ f.holds j) := by
  induction effects with
  | nil => simp [writerCount]
  | cons e effects ih =>
    have hrest : ∀ f ∈ effects, f.wf := fun f hf => hwf f (List.mem_cons_of_mem _ hf)
    rw [List.pairwise_cons, ← ih hrest]
    by_cases he : e.holds j
    · have hcount : writerCount (e :: effects) j = writerCount effects j + 1 := by
        simp [writerCount, (Memory.holds_iff_isSome (hwf e (by simp))).1 he]
      have hzero : writerCount effects j = 0 ↔ ∀ f ∈ effects, ¬ f.holds j := by
        rw [writerCount_eq_zero]
        exact forall₂_congr fun f hf => by simp [Memory.holds_iff_isSome (hrest f hf)]
      simp only [he, true_and, ← hzero]
      omega
    · have hcount : writerCount (e :: effects) j = writerCount effects j := by
        simp [writerCount, Memory.lookup_eq_none_of_not_holds (hwf e (by simp)) he]
      simp [he, hcount]

/-- Where one agent alone may have written an element, the merge is that agent's output over the buffer. -/
theorem read_mergeEffects_overlay {n : Nat} {output : Memory 16} {effects : List (Memory 16)}
    (hwf : ∀ e ∈ effects, e.wf) (hlen : ∀ e ∈ effects, e.len = output.len) {j : Nat}
    (hone : writerCount effects j ≤ 1) {e : Memory 16} (he : e ∈ effects)
    (honly : ∀ f ∈ effects, f.holds j → e.holds j) :
    (mergeEffects n output effects).read j = overlayRead e output j := by
  by_cases h : e.holds j
  · have hj := hlen e he ▸ Memory.lt_len_of_holds h
    obtain ⟨v, hv⟩ := h
    rw [read_mergeEffects_one hwf hj hone he (Memory.lookup_of_read hv), overlayRead_of_read hv]
  · rw [overlayRead_of_not_holds (hwf e he) h]
    exact read_mergeEffects_none hwf fun f hf => Memory.lookup_eq_none_of_not_holds (hwf f hf) (mt (honly f hf) h)

end Sys2Proof.Machine

/-! ### One command of one caller (20_memory.md R42, R43) -/

namespace Sys2Proof.Machine

theorem step_isNext_iff {s : State} : (∃ t, step s = .next t) ↔ s.fault = none ∧ s.pc < s.prog.length :=
  ⟨fun ⟨_, h⟩ => ⟨step_fault_eq_none h, step_pc_lt h⟩, fun ⟨hs, hpc⟩ => step_isNext hs hpc⟩

theorem runCommands_succ_of_next {view : Nat → Memory 32} {k : Nat} {s t : State}
    (h : step { s with IN := view k } = .next t) : runCommands view (k + 1) s = runCommands view k t := by
  simp [runCommands, h]

theorem runCommands_succ_of_stop {view : Nat → Memory 32} {k : Nat} {s : State}
    (h : ¬ ∃ t, step { s with IN := view k } = .next t) : runCommands view (k + 1) s = s := by
  rw [runCommands]
  split
  · rename_i t hstep
    exact absurd ⟨t, hstep⟩ h
  · rfl
  · rfl

/-- Caller `c` after one command that reads `IN` as `view`, on an output of its own in which nothing is written. -/
def System.commandOn (sys : System) (view : Memory 32) (c : Caller) : State :=
  runCommands (fun _ => view) 1 (c.view sys.IN (Memory.unwritten 16 sys.OUT.len))

section

variable {sys : System} {a j : Nat} {c : Caller} {view : Memory 32} {t : State}

theorem System.commandOn_of_next (h : step (c.view view (Memory.unwritten 16 sys.OUT.len)) = .next t) :
    sys.commandOn view c = t :=
  runCommands_succ_of_next h

theorem System.commandOn_of_stop (h : ¬ ∃ t, step (c.view view (Memory.unwritten 16 sys.OUT.len)) = .next t) :
    sys.commandOn view c = c.view sys.IN (Memory.unwritten 16 sys.OUT.len) :=
  runCommands_succ_of_stop h

theorem System.commandOn_output (sys : System) (view : Memory 32) (c : Caller) :
    (sys.commandOn view c).OUT.wf ∧ (sys.commandOn view c).OUT.len = sys.OUT.len := by
  by_cases h : ∃ t, step (c.view view (Memory.unwritten 16 sys.OUT.len)) = .next t
  · obtain ⟨t, hstep⟩ := h
    rw [System.commandOn_of_next hstep]
    exact ⟨step_output_wf hstep (Memory.unwritten_wf _ _), (step_sameConfiguration hstep).outLen⟩
  · rw [System.commandOn_of_stop h]
    exact ⟨Memory.unwritten_wf _ _, rfl⟩

theorem System.nextCommand_of_step {cmd : Cmd} (hc : sys.callers[a]? = some c) (hfault : c.fault = none)
    (hprog : c.prog[c.pc]? = some cmd) : sys.nextCommand a = some (decode cmd) := by
  have hfetch : fetch (c.view sys.IN sys.OUT) = .next cmd := fetch_eq_next.2 ⟨hfault, hprog⟩
  simp [System.nextCommand, hc, hfetch]

/-- A caller with a next command executes it in a step, over any buffers. -/
theorem System.step_of_nextCommand {i : Instr} (h : sys.nextCommand a = some i) :
    ∃ c, sys.callers[a]? = some c ∧ c.fault = none ∧
      ∀ input output, step (c.view input output) = exec i (c.view input output) := by
  unfold System.nextCommand at h
  split at h
  · cases h
  · rename_i c hc
    split at h
    · rename_i cmd hfetch
      obtain ⟨hfault, hprog⟩ := fetch_eq_next.1 hfetch
      cases h
      exact ⟨c, hc, hfault, fun _ _ => step_eq_exec hfault hprog⟩
    · cases h
    · cases h

/-- An element one command writes is one it names, and the command has completed. -/
theorem System.covers_of_commandOn_holds (hc : sys.callers[a]? = some c)
    (hholds : (sys.commandOn view c).OUT.holds j) : sys.covers a j ∧ (sys.commandOn view c).fault = none := by
  by_cases h : ∃ t, step (c.view view (Memory.unwritten 16 sys.OUT.len)) = .next t
  · obtain ⟨t, hstep⟩ := h
    rw [System.commandOn_of_next hstep] at hholds ⊢
    obtain ⟨cmd, hfault, hprog, hexec⟩ := step_eq_next.1 hstep
    have hnext := System.nextCommand_of_step hc hfault hprog
    generalize decode cmd = i at hexec hnext
    cases effect_of_exec hexec with
    | appended => exact absurd hholds (Memory.unwritten_not_holds _)
    | faulted => exact absurd hholds (Memory.unwritten_not_holds _)
    | @written inOff outOff count ws output hfits hread hwrite =>
      refine ⟨(System.covers_convertMany hnext j).2 ?_, hfault⟩
      by_contra hout
      have hlen := (Memory.readRange_eq_values.1 hread).1
      obtain ⟨v, hv⟩ := hholds
      refine Memory.unwritten_not_holds (j := j) sys.OUT.len ⟨v, ?_⟩
      rwa [State.advance_OUT, State.setOutput_OUT, Memory.read_writeRange_outside hwrite
        (by simp only [List.length_map]; omega)] at hv
  · rw [System.commandOn_of_stop h] at hholds
    exact absurd hholds (Memory.unwritten_not_holds _)

/-- A command that completes writes every element it names. -/
theorem System.commandOn_holds_of_covers (hc : sys.callers[a]? = some c) (hcovers : sys.covers a j)
    (hfault : (sys.commandOn view c).fault = none) : (sys.commandOn view c).OUT.holds j := by
  obtain ⟨inOff, outOff, count, hnext, hj⟩ := hcovers
  obtain ⟨c', hc', -, hstep⟩ := System.step_of_nextCommand hnext
  cases hc.symm.trans hc'
  obtain ⟨t, hexec, -⟩ :=
    exec_isNext (.convertMany inOff outOff count) (c.view view (Memory.unwritten 16 sys.OUT.len))
  rw [System.commandOn_of_next ((hstep _ _).trans hexec)] at hfault ⊢
  obtain ⟨k, rfl⟩ := Nat.exists_eq_add_of_le hj.1
  obtain ⟨w, -, hout⟩ := lane_of_completed (k := k) (by omega) hexec hfault
  exact ⟨_, hout⟩

theorem System.commandOn_holds_iff (hc : sys.callers[a]? = some c) :
    (sys.commandOn view c).OUT.holds j ↔ sys.covers a j ∧ (sys.commandOn view c).fault = none :=
  ⟨System.covers_of_commandOn_holds hc, fun ⟨hcovers, hfault⟩ =>
    System.commandOn_holds_of_covers hc hcovers hfault⟩

theorem System.stepCaller_of_next (hc : sys.callers[a]? = some c) (h : step (c.view sys.IN sys.OUT) = .next t) :
    sys.stepCaller a = { callers := sys.callers.set a t.caller, IN := t.IN, OUT := t.OUT } := by
  simp [System.stepCaller, hc, h]

theorem System.stepCaller_of_stop (hc : sys.callers[a]? = some c)
    (h : ¬ ∃ t, step (c.view sys.IN sys.OUT) = .next t) : sys.stepCaller a = sys := by
  simp only [System.stepCaller, hc]
  split
  · rename_i t hstep
    exact absurd ⟨t, hstep⟩ h
  · rfl
  · rfl

theorem System.stepCaller_of_none (hc : sys.callers[a]? = none) : sys.stepCaller a = sys := by
  simp [System.stepCaller, hc]

/-- `sys'` is `sys` after a command of caller `a` that ends in `u` on an output of its own: the caller is that of `u`,
and the elements written in `u` lie over `OUT`. -/
structure System.Applied (sys : System) (a : Nat) (u : State) (sys' : System) : Prop where
  callers : sys'.callers = sys.callers.set a u.caller
  input   : sys'.IN = sys.IN
  outLen  : sys'.OUT.len = sys.OUT.len
  outWf   : sys.OUT.wf → sys'.OUT.wf
  outRead : ∀ j, sys'.OUT.read j = overlayRead u.OUT sys.OUT j

/-- R94: no command reads `OUT`, so one command on the shared output is the same command on an empty one, laid over. -/
theorem System.stepCaller_applied (hc : sys.callers[a]? = some c) :
    sys.Applied a (sys.commandOn sys.IN c) (sys.stepCaller a) := by
  by_cases h : ∃ t, step (c.view sys.IN sys.OUT) = .next t
  · obtain ⟨t, hstep⟩ := h
    obtain ⟨e, hown, -, -, hread⟩ :=
      step_private (e := Memory.unwritten 16 sys.OUT.len) (m₀ := sys.OUT) rfl (fun _ => rfl) hstep
    have hsame := step_sameConfiguration hstep
    rw [System.stepCaller_of_next hc hstep, System.commandOn_of_next (view := sys.IN) hown]
    exact ⟨rfl, hsame.input, hsame.outLen, step_output_wf hstep, hread⟩
  · have hstop : ¬ ∃ t, step (c.view sys.IN (Memory.unwritten 16 sys.OUT.len)) = .next t := by
      rw [step_isNext_iff] at h ⊢
      exact h
    obtain ⟨ha, rfl⟩ := List.getElem?_eq_some_iff.1 hc
    rw [System.stepCaller_of_stop hc h, System.commandOn_of_stop hstop]
    exact ⟨(List.set_getElem_self ha).symm, rfl, rfl, id, fun _ => rfl⟩

/-- The elements a caller's next command writes, by what it writes on an output of its own. -/
theorem System.writesAt_iff (hc : sys.callers[a]? = some c) :
    sys.writesAt a j ↔ (sys.commandOn sys.IN c).OUT.holds j := by
  have hafter : (sys.stepCaller a).callers[a]? = some (sys.commandOn sys.IN c).caller := by
    rw [(System.stepCaller_applied hc).callers, List.getElem?_set_self (List.getElem?_eq_some_iff.1 hc).1]
  simp [System.commandOn_holds_iff hc, System.writesAt, hafter, State.caller]

theorem System.exists_of_covers (h : sys.covers a j) : ∃ c, sys.callers[a]? = some c := by
  obtain ⟨_, _, _, hnext, -⟩ := h
  obtain ⟨c, hc, -⟩ := System.step_of_nextCommand hnext
  exact ⟨c, hc⟩

end

end Sys2Proof.Machine

/-! ### What the agents of an episode write (20_memory.md R43, R121) -/

namespace Sys2Proof.Machine

/-- What each agent of an episode writes: the other agents first, then each caller. -/
def System.effects (sys : System) (n : Nat) (turns : Nat → Nat) (other : OtherWrites) : List (Memory 16) :=
  (Memory.unwritten 16 sys.OUT.len).writeAll other.output ::
    (sys.callers.mapIdx fun a c => (sys.runCaller n turns other a c).OUT)

theorem System.episode_OUT (sys : System) (n : Nat) (turns : Nat → Nat) (other : OtherWrites) :
    (sys.episode n turns other).OUT = mergeEffects n sys.OUT (sys.effects n turns other) := by
  have hcallers : (sys.callers.mapIdx fun a c => sys.runCaller n turns other a c).map State.OUT =
      sys.callers.mapIdx fun a c => (sys.runCaller n turns other a c).OUT :=
    List.ext_getElem? fun a => by simp [Function.comp_def]
  rw [System.effects, ← hcallers]
  rfl

theorem System.episode_callers (sys : System) (n : Nat) (turns : Nat → Nat) (other : OtherWrites) (b : Nat) :
    (sys.episode n turns other).callers[b]? =
      sys.callers[b]?.map fun c => (sys.runCaller n turns other b c).caller := by
  simp [System.episode, Function.comp_def]

section

variable {sys : System} {n : Nat} {turns : Nat → Nat} {other : OtherWrites} {a j : Nat} {c : Caller}

theorem System.mem_effects {e : Memory 16} :
    e ∈ sys.effects n turns other ↔
      e = (Memory.unwritten 16 sys.OUT.len).writeAll other.output ∨
        ∃ a c, sys.callers[a]? = some c ∧ e = (sys.runCaller n turns other a c).OUT := by
  simp only [System.effects, List.mem_cons, List.mem_mapIdx, List.getElem?_eq_some_iff]
  refine or_congr_right ⟨?_, ?_⟩
  · rintro ⟨a, ha, rfl⟩
    exact ⟨a, _, ⟨ha, rfl⟩, rfl⟩
  · rintro ⟨a, _, ⟨ha, rfl⟩, rfl⟩
    exact ⟨a, ha, rfl⟩

theorem System.runCaller_mem_effects (hc : sys.callers[a]? = some c) :
    (sys.runCaller n turns other a c).OUT ∈ sys.effects n turns other :=
  System.mem_effects.2 (.inr ⟨a, c, hc, rfl⟩)

theorem runCommands_output {view : Nat → Memory 32} (k : Nat) {s : State} (hs : s.OUT.wf) :
    (runCommands view k s).OUT.wf ∧ (runCommands view k s).OUT.len = s.OUT.len := by
  induction k generalizing s with
  | zero => exact ⟨hs, rfl⟩
  | succ k ih =>
    by_cases h : ∃ t, step { s with IN := view k } = .next t
    · obtain ⟨t, hstep⟩ := h
      rw [runCommands_succ_of_next hstep, ← (step_sameConfiguration hstep).outLen]
      exact ih (step_output_wf hstep hs)
    · rw [runCommands_succ_of_stop h]
      exact ⟨hs, rfl⟩

theorem System.effects_output {e : Memory 16} (he : e ∈ sys.effects n turns other) :
    e.wf ∧ e.len = sys.OUT.len := by
  obtain rfl | ⟨a, c, -, rfl⟩ := System.mem_effects.1 he
  · exact ⟨Memory.writeAll_wf (Memory.unwritten_wf _ _) _, Memory.writeAll_len _ _⟩
  · exact runCommands_output _ (Memory.unwritten_wf _ _)

/-- At most one agent of an episode wrote an element: not both the others and a caller, and no two callers. -/
theorem System.writerCount_effects_le_one_iff :
    writerCount (sys.effects n turns other) j ≤ 1 ↔
      (((Memory.unwritten 16 sys.OUT.len).writeAll other.output).holds j →
        ∀ a c, sys.callers[a]? = some c → ¬ (sys.runCaller n turns other a c).OUT.holds j) ∧
      ∀ a b c d, sys.callers[a]? = some c → sys.callers[b]? = some d → (sys.runCaller n turns other a c).OUT.holds j →
        (sys.runCaller n turns other b d).OUT.holds j → a = b := by
  rw [writerCount_le_one_iff fun e he => (System.effects_output he).1, System.effects, List.pairwise_cons,
    List.pairwise_iff_getElem]
  constructor
  · rintro ⟨hother, hcallers⟩
    refine ⟨fun ho a c hc h => ?_, fun a b c d hc hd h h' => ?_⟩
    · obtain ⟨ha, rfl⟩ := List.getElem?_eq_some_iff.1 hc
      exact hother _ (List.mem_mapIdx.2 ⟨a, ha, rfl⟩) ⟨ho, h⟩
    · obtain ⟨ha, rfl⟩ := List.getElem?_eq_some_iff.1 hc
      obtain ⟨hb, rfl⟩ := List.getElem?_eq_some_iff.1 hd
      by_contra hne
      obtain hlt | hlt := Nat.lt_or_gt_of_ne hne
      · exact hcallers a b (by simpa) (by simpa) hlt (by simpa using ⟨h, h'⟩)
      · exact hcallers b a (by simpa) (by simpa) hlt (by simpa using ⟨h', h⟩)
  · rintro ⟨hother, hcallers⟩
    refine ⟨fun f hf ⟨ho, h⟩ => ?_, fun a b ha hb hlt => ?_⟩
    · obtain ⟨a, ha, rfl⟩ := List.mem_mapIdx.1 hf
      exact hother ho a _ (List.getElem?_eq_getElem ha) h
    · rw [List.length_mapIdx] at ha hb
      rw [List.getElem_mapIdx, List.getElem_mapIdx]
      exact fun ⟨h, h'⟩ =>
        hlt.ne (hcallers a b _ _ (List.getElem?_eq_getElem ha) (List.getElem?_eq_getElem hb) h h')

/-- An episode leaves an element that at most one agent wrote as that agent's output has it, over `OUT`. -/
theorem System.read_episode_overlay {e : Memory 16} (he : e ∈ sys.effects n turns other)
    (hone : writerCount (sys.effects n turns other) j ≤ 1)
    (honly : ∀ f ∈ sys.effects n turns other, f.holds j → e.holds j) :
    (sys.episode n turns other).OUT.read j = overlayRead e sys.OUT j := by
  rw [System.episode_OUT]
  exact read_mergeEffects_overlay (fun f hf => (System.effects_output hf).1)
    (fun f hf => (System.effects_output hf).2) hone he honly

/-- An episode leaves an element two agents wrote with the draw. -/
theorem System.read_episode_draw (hj : j < sys.OUT.len)
    (hmany : ¬ writerCount (sys.effects n turns other) j ≤ 1) :
    (sys.episode n turns other).OUT.read j = .value (Config.racedOutput n j) := by
  rw [System.episode_OUT]
  exact read_mergeEffects_draw (fun f hf => (System.effects_output hf).1) hj (by omega)

variable {agents : List Nat}

theorem System.runCaller_of_mem (ha : a ∈ agents) :
    sys.runCaller n (oneCommandEach agents) other a c =
      sys.commandOn (racedView n a 0 other.input sys.IN) c := by
  simp [System.runCaller, oneCommandEach, ha, System.commandOn, runCommands]

theorem System.runCaller_of_not_mem (ha : a ∉ agents) :
    sys.runCaller n (oneCommandEach agents) other a c = c.view sys.IN (Memory.unwritten 16 sys.OUT.len) := by
  simp [System.runCaller, oneCommandEach, ha, runCommands]

end

end Sys2Proof.Machine

/-! ### Episodes (20_memory.md R42, R43, 60_exceptions.md R113, 70_reset_and_hazards.md R121) -/

namespace Sys2Proof.Machine

section

variable {sys : System} {n a j : Nat} {agents : List Nat} {other : OtherWrites} {c : Caller}

/-- In an episode in which no other agent writes `IN`, the elements a caller writes are those of its next command. -/
theorem System.runCaller_holds_iff (hquiet : other.input = []) (hc : sys.callers[a]? = some c) :
    (sys.runCaller n (oneCommandEach agents) other a c).OUT.holds j ↔ a ∈ agents ∧ sys.writesAt a j := by
  by_cases ha : a ∈ agents
  · rw [System.runCaller_of_mem ha, hquiet, System.writesAt_iff hc]
    exact (and_iff_right ha).symm
  · rw [System.runCaller_of_not_mem ha]
    exact iff_of_false (Memory.unwritten_not_holds _) fun h => ha h.1

/-- In any episode a caller writes only elements its next command names. -/
theorem System.covers_of_runCaller_holds (hc : sys.callers[a]? = some c)
    (h : (sys.runCaller n (oneCommandEach agents) other a c).OUT.holds j) : a ∈ agents ∧ sys.covers a j := by
  by_cases ha : a ∈ agents
  · rw [System.runCaller_of_mem ha] at h
    exact ⟨ha, ((System.commandOn_holds_iff hc).1 h).1⟩
  · rw [System.runCaller_of_not_mem ha] at h
    exact absurd h (Memory.unwritten_not_holds _)

theorem System.exists_of_writesAt (h : sys.writesAt a j) : ∃ c, sys.callers[a]? = some c :=
  System.exists_of_covers h.1

theorem System.lt_len_of_writesAt (h : sys.writesAt a j) : j < sys.OUT.len := by
  obtain ⟨c, hc⟩ := System.exists_of_writesAt h
  exact (System.commandOn_output sys sys.IN c).2 ▸ Memory.lt_len_of_holds ((System.writesAt_iff hc).1 h)

/-- An element that one caller alone writes in the episode ends as that caller's own output has it. -/
theorem System.read_episode_of_alone (hc : sys.callers[a]? = some c)
    (hholds : (sys.runCaller n (oneCommandEach agents) other a c).OUT.holds j)
    (halone : ∀ b d, sys.callers[b]? = some d → (sys.runCaller n (oneCommandEach agents) other b d).OUT.holds j → b = a)
    (hother : ¬ ((Memory.unwritten 16 sys.OUT.len).writeAll other.output).holds j) :
    (sys.episode n (oneCommandEach agents) other).OUT.read j =
      (sys.runCaller n (oneCommandEach agents) other a c).OUT.read j := by
  have hone := System.writerCount_effects_le_one_iff.2 ⟨fun ho => absurd ho hother,
    fun b b' d d' hd hd' hb hb' => (halone b d hd hb).trans (halone b' d' hd' hb').symm⟩
  rw [System.read_episode_overlay (System.runCaller_mem_effects hc) hone fun _ _ _ => hholds]
  obtain ⟨v, hv⟩ := hholds
  rw [overlayRead_of_read hv, hv]

/-- A step of a caller leaves an element it writes as the caller's own output has it. -/
theorem System.read_stepCaller_of_writesAt (hc : sys.callers[a]? = some c) (h : sys.writesAt a j) :
    (sys.stepCaller a).OUT.read j = (sys.commandOn sys.IN c).OUT.read j := by
  obtain ⟨v, hv⟩ := (System.writesAt_iff hc).1 h
  rw [(System.stepCaller_applied hc).outRead, overlayRead_of_read hv, hv]

/-- An element that one caller of the episode alone writes ends as a step of that caller leaves it. -/
theorem System.read_episode_of_writesAt (hquiet : other.input = []) (ha : a ∈ agents) (h : sys.writesAt a j)
    (halone : ∀ b ∈ agents, b ≠ a → ¬ sys.writesAt b j)
    (hother : ¬ ((Memory.unwritten 16 sys.OUT.len).writeAll other.output).holds j) :
    (sys.episode n (oneCommandEach agents) other).OUT.read j = (sys.stepCaller a).OUT.read j := by
  obtain ⟨c, hc⟩ := System.exists_of_writesAt h
  have hholds := (System.runCaller_holds_iff (n := n) (agents := agents) hquiet hc).2 ⟨ha, h⟩
  rw [System.read_episode_of_alone hc hholds ?_ hother, System.runCaller_of_mem ha, hquiet,
    System.read_stepCaller_of_writesAt hc h]
  · rfl
  · intro b d hd hb
    obtain ⟨hmem, hwrites⟩ := (System.runCaller_holds_iff hquiet hd).1 hb
    by_contra hne
    exact halone b hmem hne hwrites

/-- An element that no caller of the episode writes ends as the other agents' writes leave it. -/
theorem System.read_episode_of_not_writesAt (hquiet : other.input = []) (h : ∀ a ∈ agents, ¬ sys.writesAt a j) :
    (sys.episode n (oneCommandEach agents) other).OUT.read j = (sys.OUT.writeAll other.output).read j := by
  have hnone (a : Nat) (c : Caller) (hc : sys.callers[a]? = some c) :
      ¬ (sys.runCaller n (oneCommandEach agents) other a c).OUT.holds j := by
    rw [System.runCaller_holds_iff hquiet hc]
    exact fun ⟨ha, hwrites⟩ => h a ha hwrites
  have hone := System.writerCount_effects_le_one_iff.2 ⟨fun _ => hnone, fun a _ c _ hc _ hcontra =>
    absurd hcontra (hnone a c hc)⟩
  rw [System.read_episode_overlay (System.mem_effects.2 (.inl rfl)) hone ?_]
  · exact (overlayRead_writeAll other.output (e := Memory.unwritten 16 sys.OUT.len) (m := sys.OUT) (m₀ := sys.OUT)
      rfl (fun _ => rfl) j).symm
  · intro f hf hholds
    obtain rfl | ⟨a, c, hc, rfl⟩ := System.mem_effects.1 hf
    · exact hholds
    · exact absurd hholds (hnone a c hc)

end

/-- Settles O51: an element with two writers is a draw of the merge, and one with at most one writer is that writer's
over `OUT`. -/
theorem overlappedElementIsDrawn : Obligations.OverlappedElementIsDrawn := by
  rintro n sys agents writes j after rfl
  refine ⟨fun a ha b hb hne hwa hwb => ?_, fun a ha hwa hnamed => ?_, fun a ha hwa halone hnot => ?_,
    System.read_episode_of_not_writesAt rfl⟩
  · refine System.read_episode_draw (System.lt_len_of_writesAt hwa) fun hone => hne ?_
    obtain ⟨c, hc⟩ := System.exists_of_writesAt hwa
    obtain ⟨d, hd⟩ := System.exists_of_writesAt hwb
    exact (System.writerCount_effects_le_one_iff.1 hone).2 a b c d hc hd
      ((System.runCaller_holds_iff rfl hc).2 ⟨ha, hwa⟩) ((System.runCaller_holds_iff rfl hd).2 ⟨hb, hwb⟩)
  · have hj := System.lt_len_of_writesAt hwa
    refine System.read_episode_draw hj fun hone => ?_
    obtain ⟨c, hc⟩ := System.exists_of_writesAt hwa
    exact (System.writerCount_effects_le_one_iff.1 hone).1 (Memory.writeAll_holds (.inr ⟨hj, hnamed⟩)) a c hc
      ((System.runCaller_holds_iff rfl hc).2 ⟨ha, hwa⟩)
  · refine System.read_episode_of_writesAt rfl ha hwa halone fun ⟨v, hv⟩ => ?_
    rw [Memory.read_writeAll_other _ _ fun d hd hdj => hnot ⟨d.2, by rwa [← hdj]⟩] at hv
    exact Memory.unwritten_not_holds _ ⟨v, hv⟩

/-! ### Callers with disjoint writes, one after the other -/

/-- `sys'` is `sys` after one command each of the callers in `order`: each has its own end, and the elements it writes
are as its step alone leaves them. -/
structure System.RanInTurn (sys : System) (order : List Nat) (sys' : System) : Prop where
  input     : sys'.IN = sys.IN
  outLen    : sys'.OUT.len = sys.OUT.len
  outWf     : sys.OUT.wf → sys'.OUT.wf
  callers   : ∀ b, sys'.callers[b]? =
    sys.callers[b]?.map fun c => if b ∈ order then (sys.commandOn sys.IN c).caller else c
  written   : ∀ a ∈ order, ∀ j, sys.writesAt a j → sys'.OUT.read j = (sys.stepCaller a).OUT.read j
  untouched : ∀ j, (∀ a ∈ order, ¬ sys.writesAt a j) → sys'.OUT.read j = sys.OUT.read j

/-- One command depends on the system around its caller by `IN` and the length of `OUT` only. -/
theorem System.commandOn_congr {sys sys' : System} (hin : sys'.IN = sys.IN) (hlen : sys'.OUT.len = sys.OUT.len)
    (view : Memory 32) (c : Caller) : sys'.commandOn view c = sys.commandOn view c := by
  rw [System.commandOn, hin, hlen]
  rfl

theorem System.stepCaller_ranInTurn {sys sys' : System} {order : List Nat} {a : Nat}
    (h : sys.RanInTurn order sys') (ha : a ∉ order)
    (hdisjoint : ∀ b ∈ order, ∀ j, ¬ (sys.writesAt a j ∧ sys.writesAt b j)) :
    sys.RanInTurn (order ++ [a]) (sys'.stepCaller a) := by
  cases hc : sys.callers[a]? with
  | none =>
    have hno (j : Nat) : ¬ sys.writesAt a j := fun hw => by
      obtain ⟨c, hc'⟩ := System.exists_of_writesAt hw
      cases hc.symm.trans hc'
    rw [System.stepCaller_of_none (by rw [h.callers, hc]; rfl)]
    refine ⟨h.input, h.outLen, h.outWf, fun b => ?_, fun b hb j hw => ?_, fun j hj =>
      h.untouched j fun b hb => hj b (by simp [hb])⟩
    · obtain rfl | hne := eq_or_ne b a
      · simp [h.callers, hc]
      · simp [h.callers, hne]
    · obtain hb | hb := List.mem_append.1 hb
      · exact h.written b hb j hw
      · rw [List.mem_singleton.1 hb] at hw
        exact absurd hw (hno j)
  | some c =>
    have hc' : sys'.callers[a]? = some c := by simp [h.callers, hc, ha]
    have happlied := System.stepCaller_applied hc'
    rw [System.commandOn_congr h.input h.outLen, h.input] at happlied
    have hwf := (System.commandOn_output sys sys.IN c).1
    have hkeep (j : Nat) (hno : ¬ sys.writesAt a j) : (sys'.stepCaller a).OUT.read j = sys'.OUT.read j := by
      rw [happlied.outRead, overlayRead_of_not_holds hwf (mt (System.writesAt_iff hc).2 hno)]
    refine ⟨happlied.input.trans h.input, happlied.outLen.trans h.outLen, fun hs => happlied.outWf (h.outWf hs),
      fun b => ?_, fun b hb j hw => ?_, fun j hj => ?_⟩
    · rw [happlied.callers]
      obtain rfl | hne := eq_or_ne b a
      · simp [List.getElem?_set_self (List.getElem?_eq_some_iff.1 hc').1, hc]
      · simp [List.getElem?_set_ne hne.symm, h.callers, hne]
    · obtain hb | hb := List.mem_append.1 hb
      · rw [hkeep j fun hwa => hdisjoint b hb j ⟨hwa, hw⟩, h.written b hb j hw]
      · rw [List.mem_singleton.1 hb] at hw ⊢
        obtain ⟨v, hv⟩ := (System.writesAt_iff hc).1 hw
        rw [happlied.outRead, System.read_stepCaller_of_writesAt hc hw, overlayRead_of_read hv, hv]
    · rw [hkeep j (hj a (by simp)), h.untouched j fun b hb => hj b (by simp [hb])]

theorem System.foldl_stepCaller_ranInTurn {sys : System} {order : List Nat} (hnodup : order.Nodup)
    (hdisjoint : ∀ a ∈ order, ∀ b ∈ order, a ≠ b → ∀ j, ¬ (sys.writesAt a j ∧ sys.writesAt b j)) :
    sys.RanInTurn order (order.foldl System.stepCaller sys) := by
  induction order using List.reverseRecOn with
  | nil => exact ⟨rfl, rfl, id, by simp, by simp, fun _ _ => rfl⟩
  | append_singleton order a ih =>
    obtain ⟨horder, ha⟩ : order.Nodup ∧ ∀ b ∈ order, b ≠ a := by simpa [List.nodup_append] using hnodup
    have hran := ih horder fun b hb d hd => hdisjoint b (by simp [hb]) d (by simp [hd])
    rw [List.foldl_append]
    exact System.stepCaller_ranInTurn hran (fun hmem => ha a hmem rfl) fun b hb =>
      hdisjoint a (by simp) b (by simp [hb]) (ha b hb).symm

theorem System.eq_of_fields {sys sys' : System} (hcallers : sys.callers = sys'.callers) (hin : sys.IN = sys'.IN)
    (hout : sys.OUT = sys'.OUT) : sys = sys' := by
  cases sys
  cases sys'
  cases hcallers
  cases hin
  cases hout
  rfl

/-- R43 (a): where no two callers write an element in common, the episode is their commands one after the other. -/
theorem System.episode_eq_of_ranInTurn {sys sys' : System} {n : Nat} {agents order : List Nat} (hwf : sys.OUT.wf)
    (hperm : order.Perm agents)
    (hdisjoint : ∀ a ∈ agents, ∀ b ∈ agents, a ≠ b → ∀ j, ¬ (sys.writesAt a j ∧ sys.writesAt b j))
    (h : sys.RanInTurn order sys') : sys.episode n (oneCommandEach agents) .quiet = sys' := by
  have hlen : (sys.episode n (oneCommandEach agents) .quiet).OUT.len = sys'.OUT.len := by
    rw [System.episode_OUT, mergeEffects_len, h.outLen]
  have hwf' : (sys.episode n (oneCommandEach agents) .quiet).OUT.wf := by
    rw [System.episode_OUT]
    exact mergeEffects_wf hwf _
  refine System.eq_of_fields (List.ext_getElem? fun b => ?_) h.input.symm
    (Memory.ext_of_wf hwf' (h.outWf hwf) hlen fun j => ?_)
  · rw [System.episode_callers, h.callers]
    refine congrArg (Option.map · _) (funext fun c => ?_)
    by_cases hb : b ∈ agents
    · rw [System.runCaller_of_mem hb, if_pos (hperm.mem_iff.2 hb)]
      rfl
    · rw [System.runCaller_of_not_mem hb, if_neg (mt hperm.mem_iff.1 hb)]
      rfl
  · by_cases hw : ∃ a ∈ agents, sys.writesAt a j
    · obtain ⟨a, ha, hw⟩ := hw
      rw [h.written a (hperm.mem_iff.2 ha) j hw]
      exact System.read_episode_of_writesAt rfl ha hw
        (fun b hb hne hwb => hdisjoint a ha b hb hne.symm j ⟨hw, hwb⟩) (Memory.unwritten_not_holds _)
    · have hno : ∀ a ∈ agents, ¬ sys.writesAt a j := fun a ha hwa => hw ⟨a, ha, hwa⟩
      rw [h.untouched j fun a ha => hno a (hperm.mem_iff.1 ha)]
      exact System.read_episode_of_not_writesAt rfl hno

/-- The caller after a `convertOne` of its own. -/
def Caller.converted (c : Caller) (bits32 : Bits32) : Caller :=
  { c with pc := c.pc + 1, results := c.results ++ [convert bits32] }

/-- The system with caller `a` replaced. -/
def System.setCaller (sys : System) (a : Nat) (c : Caller) : System := { sys with callers := sys.callers.set a c }

/-- A `convertOne` changes its own caller alone, and the same way over any buffers and among any callers. -/
theorem System.stepCaller_of_convertOne {sys : System} {a : Nat} {bits32 : Bits32}
    (h : sys.nextCommand a = some (.convertOne bits32)) :
    ∃ c, sys.callers[a]? = some c ∧ ∀ sys' : System, sys'.callers[a]? = some c →
      sys'.stepCaller a = sys'.setCaller a (c.converted bits32) := by
  obtain ⟨c, hc, -, hstep⟩ := System.step_of_nextCommand h
  exact ⟨c, hc, fun sys' hc' => System.stepCaller_of_next hc' ((hstep _ _).trans (exec_convertOne _ _))⟩

/-- A step of one caller neither reads nor writes another caller. -/
theorem System.stepCaller_setCaller {sys : System} {a b : Nat} (hne : a ≠ b) (c : Caller) :
    (sys.setCaller a c).stepCaller b = (sys.stepCaller b).setCaller a c := by
  have hother : (sys.setCaller a c).callers[b]? = sys.callers[b]? := List.getElem?_set_ne hne
  cases hb : sys.callers[b]? with
  | none => rw [System.stepCaller_of_none hb, System.stepCaller_of_none (hother.trans hb)]
  | some d =>
    by_cases h : ∃ t, step (d.view sys.IN sys.OUT) = .next t
    · obtain ⟨t, hstep⟩ := h
      rw [System.stepCaller_of_next hb hstep, System.stepCaller_of_next (hother.trans hb) hstep]
      exact System.eq_of_fields (List.set_comm _ _ hne) rfl rfl
    · rw [System.stepCaller_of_stop hb h, System.stepCaller_of_stop (hother.trans hb) h]

theorem System.stepCaller_callers_other {sys : System} {a b : Nat} (hne : a ≠ b) :
    (sys.stepCaller b).callers[a]? = sys.callers[a]? := by
  cases hb : sys.callers[b]? with
  | none => rw [System.stepCaller_of_none hb]
  | some d => rw [(System.stepCaller_applied hb).callers, List.getElem?_set_ne hne.symm]

/-- Settles O50: the callers run in turn, each on elements of its own, as the merge has them; and a `convertOne` touches
its own caller only. -/
theorem disjointInvocationsCommute : Obligations.DisjointInvocationsCommute := by
  refine ⟨fun n sys agents order hwf hnodup hdisjoint hperm => ?_, fun sys a b bits32 hne hnext => ?_⟩
  · refine System.episode_eq_of_ranInTurn hwf hperm hdisjoint
      (System.foldl_stepCaller_ranInTurn (hperm.nodup_iff.2 hnodup) fun a ha b hb => ?_)
    exact hdisjoint a (hperm.mem_iff.1 ha) b (hperm.mem_iff.1 hb)
  · obtain ⟨c, hc, hconverted⟩ := System.stepCaller_of_convertOne hnext
    rw [hconverted sys hc, System.stepCaller_setCaller hne,
      hconverted _ ((System.stepCaller_callers_other hne).trans hc)]

/-! ### Raced input, and an episode of one caller -/

theorem read_racedView_of_mem {n a k i : Nat} {writes : List (Nat × Bits32)} {input : Memory 32} (hi : i < input.len)
    (h : ∃ v, (i, v) ∈ writes) : (racedView n a k writes input).read i = .value (Config.racedInput n a k i) := by
  obtain ⟨v, hv⟩ := h
  refine Memory.read_writeAll_same _ _ hi (List.mem_map.2 ⟨_, hv, rfl⟩) fun u hu => ?_
  obtain ⟨_, -, heq⟩ := List.mem_map.1 hu
  cases heq
  rfl

theorem read_racedView_of_not_mem {n a k i : Nat} {writes : List (Nat × Bits32)} {input : Memory 32}
    (h : ¬ ∃ v, (i, v) ∈ writes) : (racedView n a k writes input).read i = input.read i := by
  refine Memory.read_writeAll_other _ _ fun c hc hci => h ?_
  obtain ⟨d, hd, rfl⟩ := List.mem_map.1 hc
  exact ⟨d.2, by rwa [← hci]⟩

/-- Settles O52: each input element reads as its draw or as it is, so the command completes, and no other agent writes
the stated lanes. -/
theorem racedInputIsDrawn : Obligations.RacedInputIsDrawn := by
  rintro n sys agents writes a inOff outOff count c after ha hc hnext hfits hinput rfl
  obtain ⟨c', hc', hfault, hstep⟩ := System.step_of_nextCommand hnext
  cases hc.symm.trans hc'
  have hin : count ≤ sys.IN.len - inOff := hfits.1
  have hraced (k : Nat) (hk : k < count) (h : ∃ v, (inOff + k, v) ∈ writes) :=
    read_racedView_of_mem (n := n) (a := a) (k := 0) (input := sys.IN) (by omega) h
  have hfits' : fits inOff outOff count
      (c.view (racedView n a 0 writes sys.IN) (Memory.unwritten 16 sys.OUT.len)) := by
    refine ⟨?_, hfits.2⟩
    rwa [Caller.view_IN, racedView, Memory.writeAll_len]
  have hvalues : inputWritten inOff count
      (c.view (racedView n a 0 writes sys.IN) (Memory.unwritten 16 sys.OUT.len)) := fun k hk => by
    by_cases h : ∃ v, (inOff + k, v) ∈ writes
    · exact ⟨_, hraced k hk h⟩
    · rw [Caller.view_IN, read_racedView_of_not_mem h]
      exact (hinput k hk).resolve_left h
  obtain ⟨ws, hread⟩ := readRange_of_inputWritten hfits' hvalues
  obtain ⟨output, -, hexec⟩ := exec_convertMany_of_values hfits' hread
  have hrun : sys.runCaller n (oneCommandEach agents) { input := writes, output := [] } a c =
      ((c.view (racedView n a 0 writes sys.IN) (Memory.unwritten 16 sys.OUT.len)).setOutput output).advance := by
    rw [System.runCaller_of_mem ha]
    exact System.commandOn_of_next ((hstep _ _).trans hexec)
  refine ⟨rfl, ?_, fun k hk halone => ?_⟩
  · rw [System.episode_callers, hc, Option.map_some, hrun]
    rfl
  · obtain ⟨w, hw, hout⟩ := lane_of_completed hk hexec hfault
    have hepisode := System.read_episode_of_alone (n := n) (agents := agents)
      (other := { input := writes, output := [] }) hc ⟨_, hrun ▸ hout⟩ (fun b d hd hb => by
        obtain ⟨hmem, hcovers⟩ := System.covers_of_runCaller_holds hd hb
        by_contra hne
        exact halone b hmem hne hcovers) (Memory.unwritten_not_holds _)
    rw [hepisode, hrun, hout]
    refine ⟨fun h => ?_, fun h => ⟨w, ?_, rfl⟩⟩
    · cases hw.symm.trans (hraced k hk h)
      rfl
    · exact (read_racedView_of_not_mem h).symm.trans hw

/-- R94: a run of the machine is the same run on an output of its own, laid over the buffer. -/
theorem runCommands_of_runSteps {k : Nat} {s t : State} {e m₀ : Memory 16} (hlen : e.len = s.OUT.len)
    (hread : ∀ j, s.OUT.read j = overlayRead e m₀ j) (h : runSteps k s = .next t) :
    ∃ e', runCommands (fun _ => s.IN) k { s with OUT := e } = { t with OUT := e' } ∧
      ∀ j, t.OUT.read j = overlayRead e' m₀ j := by
  induction k generalizing s e with
  | zero =>
    cases h
    exact ⟨e, rfl, hread⟩
  | succ k ih =>
    obtain ⟨u, hstep, hrest⟩ := runSteps_succ_eq_next.1 h
    obtain ⟨e₁, hown, hlen₁, -, hread₁⟩ := step_private hlen hread hstep
    obtain ⟨e', hrun, hread'⟩ := ih hlen₁ hread₁ hrest
    refine ⟨e', (runCommands_succ_of_next hown).trans ?_, hread'⟩
    rw [(step_sameConfiguration hstep).input] at hrun ⊢
    exact hrun

theorem runSteps_output_wf {k : Nat} {s t : State} (h : runSteps k s = .next t) : s.OUT.wf → t.OUT.wf :=
  rel_of_runSteps (R := fun s t => s.OUT.wf → t.OUT.wf) (fun _ => id) (fun hst htu hs => htu (hst hs)) step_output_wf h

/-- The system of one caller, the machine's own. -/
def State.alone (s : State) : System := { callers := [s.caller], IN := s.IN, OUT := s.OUT }

theorem State.alone_callers {s : State} {a : Nat} {c : Caller} (h : s.alone.callers[a]? = some c) :
    a = 0 ∧ c = s.caller := by
  cases a with
  | zero => exact ⟨rfl, (Option.some.inj h).symm⟩
  | succ a => cases h

/-- With one caller and no other agent, an episode leaves what the caller wrote over `OUT`. -/
theorem State.read_alone_episode (s : State) (n : Nat) (turns : Nat → Nat) (j : Nat) :
    (s.alone.episode n turns .quiet).OUT.read j =
      overlayRead (s.alone.runCaller n turns .quiet 0 s.caller).OUT s.OUT j := by
  have hnone : ¬ ((Memory.unwritten 16 s.OUT.len).writeAll OtherWrites.quiet.output).holds j :=
    Memory.unwritten_not_holds _
  have hone : writerCount (s.alone.effects n turns .quiet) j ≤ 1 :=
    System.writerCount_effects_le_one_iff.2 ⟨fun ho => absurd ho hnone, fun a b c d hc hd _ _ =>
      (State.alone_callers hc).1.trans (State.alone_callers hd).1.symm⟩
  refine System.read_episode_overlay (System.runCaller_mem_effects (sys := s.alone) (a := 0) rfl) hone ?_
  intro f hf hholds
  obtain rfl | ⟨a, c, hc, rfl⟩ := System.mem_effects.1 hf
  · exact absurd hholds hnone
  · obtain ⟨rfl, rfl⟩ := State.alone_callers hc
    exact hholds

/-- Settles O53: the one caller runs as the machine does, and what it wrote on an output of its own lies over `OUT`. -/
theorem oneCallerEpisodeIsRun : Obligations.OneCallerEpisodeIsRun := by
  intro n k s t hwf h
  have hsame := runSteps_sameConfiguration h
  obtain ⟨e, hrun, hread⟩ :=
    runCommands_of_runSteps (e := Memory.unwritten 16 s.OUT.len) (m₀ := s.OUT) rfl (fun _ => rfl) h
  have hrunCaller : s.alone.runCaller n (fun _ => k) .quiet 0 s.caller = { t with OUT := e } := hrun
  change s.alone.episode n (fun _ => k) .quiet = t.alone
  refine System.eq_of_fields ?_ hsame.input.symm (Memory.ext_of_wf ?_ (runSteps_output_wf h hwf) ?_ fun j => ?_)
  · change [(s.alone.runCaller n (fun _ => k) .quiet 0 s.caller).caller] = _
    rw [hrunCaller]
    rfl
  · rw [System.episode_OUT]
    exact mergeEffects_wf hwf _
  · rw [System.episode_OUT, mergeEffects_len]
    exact hsame.outLen.symm
  · rw [State.read_alone_episode, hrunCaller]
    exact (hread j).symm

end Sys2Proof.Machine
